-- ==== Sys2Proof/Word.lean ====
section
/-! DEFINITION. The widths of the values the hardware moves (spec/00_scope.md R10, R14, R15).
The helpers that take them apart and put them together stand in Machine/Operands.lean and Machine/Flags.lean. -/

namespace Sys2Proof

/-- A 4-bit value (R18, "Nibble"). -/
abbrev Nibble := BitVec 4

/-- A 7-bit Hamming(7,4) codeword, or any 7 received bits (R18, "Codeword"). -/
abbrev Codeword := BitVec 7

/-- A byte of a message, a header or a buffer. -/
abbrev Byte := BitVec 8

/-- One command word (spec/30_encoding.md R78). -/
abbrev Word := BitVec 16

/-- A 3-bit syndrome (spec/40_hamming_codec.md R104). -/
abbrev Syndrome := BitVec 3

/-- A bit sequence in time order: the first element is sent, or received, first (R15). -/
abbrev Bits := List Bool

end Sys2Proof
end

