-- ==== Sys2Proof/Syntax.lean ====
section
/-! DEFINITION. The nine commands (spec/30_encoding.md R81, R83), one constructor for each row of spec/opcode_table.json.
An operand has exactly the width its format gives it (R79, R80), so no term can hold an operand that does not fit. -/

namespace Sys2Proof

/-- One command of the host. -/
inductive Instr where
  /-- `NOP`, spec/42_rx_sync_framer.md R141. -/
  | nop
  /-- `ENC n`, spec/40_hamming_codec.md R102. -/
  | enc (n : Nibble)
  /-- `DEC c`, spec/40_hamming_codec.md R107. -/
  | dec (c : Codeword)
  /-- `RXBIT b`, spec/42_rx_sync_framer.md R147. -/
  | rxbit (b : Bool)
  /-- `RXRST`, spec/42_rx_sync_framer.md R160. -/
  | rxrst
  /-- `TXPUT v`, spec/41_tx_framer.md R122. -/
  | txput (v : Byte)
  /-- `TXBUILD q`, spec/41_tx_framer.md R125. -/
  | txbuild (q : Byte)
  /-- `TXCLR`, spec/41_tx_framer.md R121. -/
  | txclr
  /-- `SNAP`, spec/43_statistics.md R184. -/
  | snap
  deriving DecidableEq, Repr

end Sys2Proof
end

