-- ==== Sys2Proof/Decode.lean ====
section
/-! DEFINITION. The command words (spec/30_encoding.md Part B, R78 to R82): the decoder, total on the 65536 words and
rejecting by name, and after it the encoder and the opcode map as data. -/

namespace Sys2Proof

/-- Why a word is illegal (R82 gives both kinds; the response to either is `Error(IllegalCommand)`).
DESIGN CHOICE (log 16): the two names are the model's. -/
inductive DecodeError where
  /-- `w[15:12]` is `0x9` to `0xF`. -/
  | reservedOpcode
  /-- A bit that the word's format shows as `0` is 1. -/
  | reservedBit
  deriving DecidableEq, Repr

/-- R78: the operation code, `w[15:12]`. -/
def opcodeField (w : Word) : BitVec 4 := w.extractLsb' 12 4

/-- R80: the operand field of `n` bits, `w[n-1:0]`, with no extension, scaling, shift or reordering. -/
def operandField (n : Nat) (w : Word) : BitVec n := w.extractLsb' 0 n

/-- R79: every bit of `w[11:0]` above an operand of `n` bits is 0. -/
def paddingClear (n : Nat) (w : Word) : Bool := (w &&& 0x0FFF#16) >>> n == 0

/-- R82: a word of a known operation code stands for `i` when the bits above its `n`-bit operand are 0. -/
def withPadding (n : Nat) (w : Word) (i : Instr) : Except DecodeError Instr :=
  if paddingClear n w then .ok i else .error .reservedBit

/-- R81, R82: the command a word stands for, or why it is illegal. -/
def decode (w : Word) : Except DecodeError Instr :=
  match (opcodeField w).toNat with
  | 0x0 => withPadding 0 w .nop
  | 0x1 => withPadding 4 w (.enc (operandField 4 w))
  | 0x2 => withPadding 7 w (.dec (operandField 7 w))
  | 0x3 => withPadding 1 w (.rxbit (w.getLsbD 0))
  | 0x4 => withPadding 0 w .rxrst
  | 0x5 => withPadding 8 w (.txput (operandField 8 w))
  | 0x6 => withPadding 8 w (.txbuild (operandField 8 w))
  | 0x7 => withPadding 0 w .txclr
  | 0x8 => withPadding 0 w .snap
  | _ => .error .reservedOpcode

/-- The host's question of one row of spec/opcode_table.json: the instruction the decoder reads from an instruction whose
bits are `w`. Every command is one 16-bit word (R78), so a longer field, or a value that does not fit it, is none. -/
def decodeTableWord (nbits w : Nat) : Option Instr :=
  if nbits ≤ 16 ∧ w < 2 ^ nbits then
    match decode (BitVec.ofNat 16 w) with
    | .ok i => some i
    | .error _ => none
  else none

/-- R81: the word of a command, written from the patterns of the opcode map. -/
def encode (i : Instr) : Word :=
  match i with
  | .nop => 0x0000
  | .enc n => 0x1000 ||| n.setWidth 16
  | .dec c => 0x2000 ||| c.setWidth 16
  | .rxbit b => 0x3000 ||| (BitVec.ofBool b).setWidth 16
  | .rxrst => 0x4000
  | .txput v => 0x5000 ||| v.setWidth 16
  | .txbuild q => 0x6000 ||| q.setWidth 16
  | .txclr => 0x7000
  | .snap => 0x8000

/-- R81: the mnemonic of a command. -/
def mnemonic (i : Instr) : String :=
  match i with
  | .nop => "NOP"
  | .enc _ => "ENC"
  | .dec _ => "DEC"
  | .rxbit _ => "RXBIT"
  | .rxrst => "RXRST"
  | .txput _ => "TXPUT"
  | .txbuild _ => "TXBUILD"
  | .txclr => "TXCLR"
  | .snap => "SNAP"

/-- R81: a row of the opcode map as data: its mnemonic, its mask and its match. -/
def opcodeRows : List (String × Word × Word) :=
  [("NOP", 0xFFFF, 0x0000), ("ENC", 0xFFF0, 0x1000), ("DEC", 0xFF80, 0x2000),
   ("RXBIT", 0xFFFE, 0x3000), ("RXRST", 0xFFFF, 0x4000), ("TXPUT", 0xFF00, 0x5000),
   ("TXBUILD", 0xFF00, 0x6000), ("TXCLR", 0xFFFF, 0x7000), ("SNAP", 0xFFFF, 0x8000)]

/-- R81: a word selects a row when `w & mask = match`. -/
def selectsRow (w : Word) (row : String × Word × Word) : Bool := w &&& row.2.1 == row.2.2

end Sys2Proof
end

