-- ==== Sys2Proof/Config.lean ====
section
/-! DEFINITION. The configuration record of a device (spec/00_scope.md R9 to R13): constants fixed when the device is built
and never writable by any command. The default `cfg0` is the spec's own choice (R11; spec/92_eei_decisions.md D2, D5, D6). -/

namespace Sys2Proof

/-- R9: the constants one device is built with. Bit `j` of `pmask i` is 1 when data bit `d[j]` takes part in parity bit `p[i]`. -/
structure Cfg where
  preamble    : BitVec 16
  startMarker : Byte
  endMarker   : Byte
  syncTol     : Nat
  endTol      : Nat
  pmask2      : BitVec 4
  pmask1      : BitVec 4
  pmask0      : BitVec 4
  deriving DecidableEq, Repr

/-- R11: the default configuration, used by every vector of spec/95_test_vectors.md. -/
def cfg0 : Cfg where
  preamble := 0x1ACF
  startMarker := 0xFC
  endMarker := 0x1D
  syncTol := 2
  endTol := 1
  pmask2 := 0b1110
  pmask1 := 0b1101
  pmask0 := 0b1011

/-- R10: how many bits the synchronizer's window holds. -/
def windowBits : Nat := 24

/-- R10, R31, R33: the number of bytes of `RXBUF` and of `TXBUF`, and the longest payload. -/
def bufBytes : Nat := 255

/-- R13, R35: the number of bins of `hist`, one for each possible corrected-bit count 0 to 518. -/
def histBins : Nat := 519

end Sys2Proof
end

