-- ==== Sys2Proof/WellFormed.lean ====
section
/-! DEFINITION. Well-formedness of a configuration (spec/00_scope.md R12).
A term of `Instr` needs no check: each operand's type has the width of its format (spec/30_encoding.md R79, R80).
The check of an assembler line's operands (R86) stands with the assembler, in Machine/Asm.lean. -/

namespace Sys2Proof

/-- R12 (a): the syndrome column of data bit `d[j]`, the 3-bit value `PMASK2[j] ∥ PMASK1[j] ∥ PMASK0[j]`. -/
def Cfg.dataColumn (c : Cfg) (j : Nat) : Syndrome :=
  BitVec.ofBool (c.pmask2.getLsbD j) ++ BitVec.ofBool (c.pmask1.getLsbD j) ++ BitVec.ofBool (c.pmask0.getLsbD j)

/-- R12 (a): the seven columns in the order of the codeword's bits `c[0]` to `c[6]`: `p[0]`, `p[1]`, `p[2]`, `d[0]` to `d[3]`. -/
def Cfg.columns (c : Cfg) : List Syndrome :=
  [0b001, 0b010, 0b100, c.dataColumn 0, c.dataColumn 1, c.dataColumn 2, c.dataColumn 3]

/-- R12 (a): the columns are pairwise distinct and non-zero. -/
def Cfg.columnsWf (c : Cfg) : Bool :=
  decide c.columns.Nodup && decide (0 ∉ c.columns)

/-- R12 (b): the markers differ from each other and from either byte of the preamble. -/
def Cfg.markersWf (c : Cfg) : Bool :=
  c.startMarker != c.endMarker &&
  c.startMarker != c.preamble.extractLsb' 8 8 && c.startMarker != c.preamble.extractLsb' 0 8 &&
  c.endMarker != c.preamble.extractLsb' 8 8 && c.endMarker != c.preamble.extractLsb' 0 8

/-- R12 (c): the tolerances. -/
def Cfg.tolerancesWf (c : Cfg) : Bool :=
  decide (c.syncTol < 12) && c.endTol == 1

/-- R12: a configuration is well formed when (a), (b) and (c) hold. -/
def Cfg.wf (c : Cfg) : Bool :=
  c.columnsWf && c.markersWf && c.tolerancesWf

end Sys2Proof
end

