-- ==== Sys2Proof/Machine/State.lean ====
section
/-! DEFINITION. The state of the device (spec/10_state.md R20 to R38), its responses (spec/30_encoding.md R76, R77, R84),
and the reasons a step can stop. Registers keep the spec's names. -/

namespace Sys2Proof.Machine

/-! ### Stores -/

/-- Sparse data by index: pairs in rising order of index. -/
abbrev Cells (α : Type) := List (Nat × α)

/-- Every index is at least `lo` and below `hi`, and the indices strictly rise. -/
def Cells.sortedWithin {α : Type} (lo hi : Nat) : Cells α → Bool
  | [] => true
  | (k, _) :: m => decide (lo ≤ k) && decide (k < hi) && Cells.sortedWithin (k + 1) hi m

/-- A byte store: `TXBUF` or `RXBUF` (spec/20_memory.md R50), as `Host.Cell`s.
An unlisted index reads as no value: nothing has written that byte (log 6, DESIGN CHOICE, safe). -/
abbrev Memory := List Host.Cell

/-- The canonical form of a byte store: indices strictly rise and lie in 0 to 254 (R50). -/
def Memory.wf (m : Memory) : Bool := Cells.sortedWithin 0 bufBytes m

/-- The histogram `hist[0..518]` (R35): the bins that are not 0, as pairs of bin and count (log 9). -/
abbrev Hist := List (Nat × Nat)

/-- The canonical form of the histogram: bins strictly rise and lie in 0 to 518, and no listed count is 0. -/
def Hist.wf (h : Hist) : Bool := Cells.sortedWithin 0 histBins h && h.all (fun p => p.2 != 0)

/-! ### Results and responses -/

/-- R77: `error_count`. Three values and no fourth (spec/93_implementation_defined.md U10). -/
inductive ErrorCount where
  | zero
  | one
  | uncertain
  deriving DecidableEq, Repr

/-- R77: the result of `dec`. -/
structure DecResult where
  nibble     : Nibble
  corrected  : Bool
  errorCount : ErrorCount
  deriving DecidableEq, Repr

/-- R76: the record of an emitted packet. -/
structure DecodedPacket where
  sequenceNumber             : Byte
  payload                    : List Byte
  correctedBitCount          : Nat
  possibleUncorrectableError : Bool
  deriving DecidableEq, Repr

/-- R144: the event of an `RXBIT` step. -/
inductive Event where
  | packetEmitted (pkt : DecodedPacket)
  | headerCorrupt
  | endMarkerMismatch
  deriving DecidableEq, Repr

/-- R190 (a): the command errors, reported in the response. -/
inductive CommandError where
  | invalidPayloadSize
  | illegalCommand
  deriving DecidableEq, Repr

/-- R35: the counters of `STAT`, natural numbers (R180; log 8). -/
structure Stat where
  nEmitted       : Nat
  nHeaderCorrupt : Nat
  nEndMismatch   : Nat
  totalCorrected : Nat
  hist           : Hist
  deriving DecidableEq, Repr

/-- R84: the response of a step. -/
inductive Response where
  | ok
  | codeword (c : Codeword)
  | decoded (r : DecResult)
  | bits (s : Bits)
  | packet (pkt : DecodedPacket)
  | snapshot (stat : Stat)
  | error (e : CommandError)
  deriving DecidableEq, Repr

/-! ### Registers -/

/-- R22: the state tag `st` of the receive framer. -/
inductive RxState where
  | searching
  | header
  | payload
  | endCheck
  deriving DecidableEq, Repr

/-- R28: the header bytes `hdr[0..3]`: `plen`, `seq` and the two reserved bytes. -/
structure Header where
  plen      : Byte
  seq       : Byte
  reserved0 : Byte
  reserved1 : Byte
  deriving DecidableEq, Repr

/-- R38: every header byte at its reset value. -/
def Header.zero : Header := ⟨0, 0, 0, 0⟩

/-- The receive framer `RXF` (R22 to R31). -/
structure Rxf where
  st     : RxState
  win    : BitVec 24
  wfill  : BitVec 5
  sh     : BitVec 8
  bitcnt : BitVec 12
  hi     : Nibble
  hdr    : Header
  corr   : BitVec 10
  unc    : Bool
  rxbuf  : Memory
  deriving DecidableEq, Repr

/-- The transmit staging registers (R32, R33). -/
structure Txf where
  txlen : BitVec 9
  txbuf : Memory
  deriving DecidableEq, Repr

/-- The whole state of one device, with the two ends of its command interface.
`cfg` is fixed for the life of the device (R21; log 4). `cmds` is what the host has still to issue (log 1);
`resp` is the response of the step just taken, which no command reads (R21, R84; log 3). -/
structure State where
  cfg  : Cfg
  rx   : Rxf
  tx   : Txf
  stat : Stat
  cmds : List Word
  resp : Option Response
  deriving DecidableEq, Repr

/-! ### Reset -/

/-- R38: `RXF` after hard reset. -/
def Rxf.reset : Rxf where
  st := .searching
  win := 0
  wfill := 0
  sh := 0
  bitcnt := 0
  hi := 0
  hdr := .zero
  corr := 0
  unc := false
  rxbuf := []

/-- R38: the staging registers after hard reset. -/
def Txf.reset : Txf where
  txlen := 0
  txbuf := []

/-- R38: the counters after hard reset. -/
def Stat.reset : Stat where
  nEmitted := 0
  nHeaderCorrupt := 0
  nEndMismatch := 0
  totalCorrected := 0
  hist := []

/-- R220: a device built with `c`, right after hard reset, with no command issued yet. -/
def State.resetWith (c : Cfg) : State where
  cfg := c
  rx := .reset
  tx := .reset
  stat := .reset
  cmds := []
  resp := none

/-- R220 with the default configuration of R11 (log 4). -/
def State.reset : State := State.resetWith cfg0

/-! ### Stops -/

/-- Why a step can stop. The device itself has no fault state (spec/60_exceptions.md R202): each of these is raised only in
states that no run of a device with a well-formed `cfg` reaches. -/
inductive Fault where
  /-- Raised by an access to `hdr`, `RXBUF`, `TXBUF` or `hist` at an index the store does not have (spec/20_memory.md R50, R60).
  By R52 no reachable state forms such an index. Safe (log 7). -/
  | outsideStore
  /-- Raised by a read of a byte of `RXBUF` or `TXBUF` that nothing has written (R31, R33: its value is unspecified).
  By spec/70_reset_and_hazards.md R232 no reachable state reads one. Safe (log 6). -/
  | unwrittenByte
  /-- Raised by a decode whose non-zero syndrome is no column of `cfg`, which a well-formed `cfg` excludes
  (spec/00_scope.md R12, spec/40_hamming_codec.md R105). Safe (log 5). -/
  | cfgIllFormed
  deriving DecidableEq, Repr

/-- Why an instruction has no meaning. No arm of `exec` uses it. -/
inductive Refusal where
  /-- The instruction of this mnemonic is not modelled. Safe. -/
  | notModelled (mnemonic : String)
  deriving DecidableEq, Repr

end Sys2Proof.Machine
end

