-- ==== Sys2Proof/Machine/Operands.lean ====
section
/-! DEFINITION. Taking values apart and putting them together: serial order, nibbles and bytes, the shift registers
(spec/00_scope.md R14, R15, spec/20_memory.md R53, R54, spec/30_encoding.md R70). -/

namespace Sys2Proof.Machine

/-- R15: `msb_N(v)`, the bits of a value with the most significant bit first. -/
def msbBits {n : Nat} (v : BitVec n) : Bits := (List.range n).map v.getMsbD

/-- R53: a register of `n` bits after it takes in one more bit at its least significant end: `((v << 1) | b)[n-1:0]`. -/
def shiftIn {n : Nat} (v : BitVec n) (b : Bool) : BitVec n := v <<< 1 ||| (BitVec.ofBool b).setWidth n

/-- R54: `B[7:4]`, sent first. -/
def highNibble (v : Byte) : Nibble := v.extractLsb' 4 4

/-- R54: `B[3:0]`, sent second. -/
def lowNibble (v : Byte) : Nibble := v.extractLsb' 0 4

/-- R54: `hi ∥ lo`. -/
def joinNibbles (hi lo : Nibble) : Byte := hi ++ lo

/-- R70: the data bits `c[6:3]` of a codeword. -/
def dataBits (c : Codeword) : Nibble := c.extractLsb' 3 4

/-- R152: the group `sh[6:0]`. -/
def groupOf (sh : BitVec 8) : Codeword := sh.extractLsb' 0 7

/-- R9: `PMASK2`, `PMASK1`, `PMASK0` by number. -/
def pmask (c : Cfg) (i : Nat) : BitVec 4 :=
  match i with
  | 0 => c.pmask0
  | 1 => c.pmask1
  | _ => c.pmask2

/-- R143: `SYNC24 = PREAMBLE ∥ START_MARKER`. -/
def sync24 (c : Cfg) : BitVec 24 := c.preamble ++ c.startMarker

/-- R22: the 2-bit code of a state tag. -/
def RxState.code : RxState → BitVec 2
  | .searching => 0
  | .header => 1
  | .payload => 2
  | .endCheck => 3

/-- R77: the 2-bit code of an error count. -/
def ErrorCount.code : ErrorCount → BitVec 2
  | .zero => 0b00
  | .one => 0b01
  | .uncertain => 0b11

/-- R28: `hdr[i]`. -/
def Header.get? (h : Header) (i : Nat) : Option Byte :=
  match i with
  | 0 => some h.plen
  | 1 => some h.seq
  | 2 => some h.reserved0
  | 3 => some h.reserved1
  | _ => none

/-- R28: `hdr[i] <- v`; there are four header bytes. -/
def Header.set? (h : Header) (i : Nat) (v : Byte) : Option Header :=
  match i with
  | 0 => some { h with plen := v }
  | 1 => some { h with seq := v }
  | 2 => some { h with reserved0 := v }
  | 3 => some { h with reserved1 := v }
  | _ => none

end Sys2Proof.Machine
end

