-- ==== Sys2Proof/Machine/Flags.lean ====
section
/-! DEFINITION. The computations of parity and distance (spec/00_scope.md R14, R17) and the values that act as flags
(spec/10_state.md R34): the device has no condition-code register. -/

namespace Sys2Proof.Machine

/-- R14: the number of 1 bits. -/
def popcount {n : Nat} (v : BitVec n) : Nat := (List.range n).countP v.getLsbD

/-- R14: the Hamming distance. -/
def hd {n : Nat} (a b : BitVec n) : Nat := popcount (a ^^^ b)

/-- R14: `popcount(v) mod 2`, as a bit. -/
def parity {n : Nat} (v : BitVec n) : Bool := popcount v % 2 == 1

/-- R32, R34: the overflow mark of staging, "more than 255 bytes were offered". -/
def overflowMark (txlen : BitVec 9) : Bool := txlen == 256

/-- R145: `unc | (r.error_count == uncertain)`. -/
def mergeUnc (unc : Bool) (r : DecResult) : Bool := unc || r.errorCount == .uncertain

/-- R145: `corr + r.corrected`. -/
def addCorrected (corr : BitVec 10) (r : DecResult) : BitVec 10 := corr + (BitVec.ofBool r.corrected).setWidth 10

/-- R143: the match test of the synchronizer, on a full window only. -/
def syncMatch (c : Cfg) (w : BitVec 24) (f : Nat) : Bool :=
  f == windowBits && decide (hd w (sync24 c) ≤ c.syncTol)

/-- R157: the tolerance test of the end check (`END_TOL` is 1 in every well-formed `cfg`, R12 (c); log 17). -/
def endMatch (c : Cfg) (e : Byte) : Bool := decide (hd e c.endMarker ≤ c.endTol)

/-- R85: the numeric code of a command error. Code 0, none, is `conditionCode`'s (Machine/Conditions.lean). -/
def CommandError.code : CommandError → Nat
  | .invalidPayloadSize => 4
  | .illegalCommand => 5

/-- R85: the numeric code of an event. -/
def Event.code : Event → Nat
  | .packetEmitted _ => 1
  | .headerCorrupt => 2
  | .endMarkerMismatch => 3

end Sys2Proof.Machine
end

