-- ==== Sys2Proof/Machine/Ops.lean ====
section
/-! DEFINITION. The shared operations: reading and writing the three stores (spec/20_memory.md R50, R51), `rx_clear`
(spec/42_rx_sync_framer.md R146), giving a response (R16, R84), raising a command error (R16, R190) and hard reset (R220). -/

namespace Sys2Proof.Machine

/-! ### Sparse data -/

/-- The value listed at an index. -/
def Cells.get? {α : Type} : Cells α → Nat → Option α
  | [], _ => none
  | (k, v) :: m, a => if a = k then some v else Cells.get? m a

/-- The data with the value at an index replaced, the order of the indices kept. -/
def Cells.set {α : Type} : Cells α → Nat → α → Cells α
  | [], a, x => [(a, x)]
  | (k, v) :: m, a, x =>
    if a < k then (a, x) :: (k, v) :: m
    else if a = k then (a, x) :: m
    else (k, v) :: Cells.set m a x

/-! ### The byte stores -/

/-- `BUF[i]`, when something has written it. -/
def Memory.get? (m : Memory) (i : Nat) : Option Byte := Cells.get? m i

/-- R16, R58: `BUF[i] <- v`, one byte, `i` in 0 to 254. -/
def Memory.store (m : Memory) (i : Nat) (v : Byte) : Except Fault Memory :=
  if i < bufBytes then .ok (Cells.set m i v) else .error .outsideStore

/-- The bytes `BUF[i], …, BUF[i+n-1]`, when something has written every one of them. -/
def Memory.getRange? (m : Memory) (i : Nat) : Nat → Option (List Byte)
  | 0 => some []
  | n + 1 =>
    match m.get? i, m.getRange? (i + 1) n with
    | some v, some vs => some (v :: vs)
    | _, _ => none

/-- R51: `⟨BUF[0], …, BUF[n-1]⟩`. A length beyond the store, or a byte nothing has written, is a stop (log 6, log 7). -/
def Memory.load (m : Memory) (n : Nat) : Except Fault (List Byte) :=
  if n ≤ bufBytes then
    match m.getRange? 0 n with
    | some vs => .ok vs
    | none => .error .unwrittenByte
  else .error .outsideStore

/-! ### The histogram -/

/-- R35: `hist[c]`; an unlisted bin is 0. -/
def Hist.count (h : Hist) (c : Nat) : Nat := (Cells.get? h c).getD 0

/-- R181: `hist[c] <- hist[c] + 1`, `c` in 0 to 518. -/
def Hist.bump (h : Hist) (c : Nat) : Except Fault Hist :=
  if c < histBins then .ok (Cells.set h c (h.count c + 1)) else .error .outsideStore

/-- R184: the 519 bins in order. -/
def Hist.bins (h : Hist) : List Nat := (List.range histBins).map h.count

/-! ### The receive framer -/

/-- R146: `rx_clear`, performed at every return to `SEARCHING`; `RXBUF` is left unchanged. -/
def rxClear (r : Rxf) : Rxf :=
  { r with
    st := .searching, win := 0, wfill := 0, sh := 0, bitcnt := 0, hi := 0, hdr := .zero, corr := 0, unc := false }

/-! ### Ending a step -/

/-- R16: `respond V` ends the step in the state `s` with response `V`. -/
def respond (v : Response) (s : State) : Host.Outcome State Fault Refusal := .next { s with resp := some v }

/-- R16, R200: `raise E` ends the step with response `Error(E)`. A condition saves nothing and transfers control nowhere, so there
is nothing to return from (R201); `s` carries the writes its rule lists before the `raise`. -/
def raise (e : CommandError) (s : State) : Host.Outcome State Fault Refusal := respond (.error e) s

/-- R220: the power-on reset of a device. It is no command. `RXBUF` and `TXBUF` are unspecified after it.
DESIGN CHOICE (log 15): what the host has still to issue is the host's and stays. -/
def hardReset (s : State) : State := { State.resetWith s.cfg with cmds := s.cmds }

end Sys2Proof.Machine
end

