-- ==== Sys2Proof/Machine/Codec.lean ====
section
/-! DEFINITION. The Hamming(7,4) encoder and decoder and their commands `ENC` and `DEC` (spec/40_hamming_codec.md).
`TXF` and `RXF` use the same two functions with the same `cfg` (R111). -/

namespace Sys2Proof.Machine

/-- R71: `p[i] = parity(d & PMASKi)`. -/
def parityBit (c : Cfg) (d : Nibble) (i : Nat) : Bool := parity (d &&& pmask c i)

/-- R101: `enc(d) = d[3:0] ∥ p[2] ∥ p[1] ∥ p[0]`. -/
def enc (c : Cfg) (d : Nibble) : Codeword :=
  d ++ BitVec.ofBool (parityBit c d 2) ++ BitVec.ofBool (parityBit c d 1) ++ BitVec.ofBool (parityBit c d 0)

/-- R104: `s[i] = parity(c[6:3] & PMASKi) ^ c[i]`. -/
def synBit (c : Cfg) (w : Codeword) (i : Nat) : Bool := parityBit c (dataBits w) i ^^ w.getLsbD i

/-- R104: the syndrome `s[2] ∥ s[1] ∥ s[0]`. -/
def syn (c : Cfg) (w : Codeword) : Syndrome :=
  BitVec.ofBool (synBit c w 2) ++ BitVec.ofBool (synBit c w 1) ++ BitVec.ofBool (synBit c w 0)

/-- The codeword-wide value with bit `i` alone set, `1 << i`. -/
def oneBit (i : Nat) : Codeword := 1#7 <<< i

/-- R105: the index `i` in 0 to 6 whose column `syn(1 << i)` equals `s`.
DESIGN CHOICE (log 18): where two bits of an ill-formed `cfg` share the column, the lowest index; R105 gives `pos` for well-formed
`cfg` only. -/
def pos (c : Cfg) (s : Syndrome) : Option Nat := (List.range 7).find? (fun i => syn c (oneBit i) == s)

/-- R106: the result of decoding 7 received bits.
None only where a non-zero syndrome is no column, which a well-formed `cfg` excludes (R105; log 5). -/
def dec (c : Cfg) (w : Codeword) : Option DecResult :=
  if syn c w = 0 then some ⟨dataBits w, false, .zero⟩
  else
    match pos c (syn c w) with
    | some i => some ⟨dataBits (w ^^^ oneBit i), true, .one⟩
    | none => none

/-- R102: `ENC n`. -/
def execEnc (n : Nibble) (s : State) : Host.Outcome State Fault Refusal := respond (.codeword (enc s.cfg n)) s

/-- R107: `DEC c`. -/
def execDec (c : Codeword) (s : State) : Host.Outcome State Fault Refusal :=
  match dec s.cfg c with
  | some r => respond (.decoded r) s
  | none => .fault .cfgIllFormed

end Sys2Proof.Machine
end

