-- ==== Sys2Proof/Machine/Statistics.lean ====
section
/-! DEFINITION. The statistics counters, `record` and the command `SNAP` (spec/43_statistics.md). -/

namespace Sys2Proof.Machine

/-- R181: `record(ev)`, performed once inside the `RXBIT` step that produced the event (R182). -/
def record (ev : Event) (t : Stat) : Except Fault Stat :=
  match ev with
  | .packetEmitted pkt =>
    match t.hist.bump pkt.correctedBitCount with
    | .ok h =>
      .ok { t with
        nEmitted := t.nEmitted + 1
        totalCorrected := t.totalCorrected + pkt.correctedBitCount
        hist := h }
    | .error f => .error f
  | .headerCorrupt => .ok { t with nHeaderCorrupt := t.nHeaderCorrupt + 1 }
  | .endMarkerMismatch => .ok { t with nEndMismatch := t.nEndMismatch + 1 }

/-- R184: `SNAP` responds with a copy of the counters as they stand before the step. -/
def execSnap (s : State) : Host.Outcome State Fault Refusal := respond (.snapshot s.stat) s

end Sys2Proof.Machine
end

