-- ==== Sys2Proof/Machine/RxFramer.lean ====
section
/-! DEFINITION. The receive synchronizer and packet state machine and its commands `NOP`, `RXBIT`, `RXRST`
(spec/42_rx_sync_framer.md). The functions on `Rxf` follow the rules R145 to R158 one by one; each gives the registers after
the step and the event of the step, if any. -/

namespace Sys2Proof.Machine

/-! ### State SEARCHING -/

/-- R148: `wfill'`. -/
def fillNext (r : Rxf) : Nat := min (r.wfill.toNat + 1) windowBits

/-- R148 to R150: one bit in `SEARCHING`. At a match the step writes `HEADER` and zeroes the rest, as R149 lists. -/
def searchBit (c : Cfg) (r : Rxf) (b : Bool) : Rxf :=
  if syncMatch c (shiftIn r.win b) (fillNext r) then { rxClear r with st := .header }
  else { r with win := shiftIn r.win b, wfill := BitVec.ofNat 5 (fillNext r) }

/-! ### States HEADER and PAYLOAD -/

/-- R151: the group register takes in a bit (`sh[7]` stays 0) and the bit is counted. -/
def shiftGroup (r : Rxf) (b : Bool) : Rxf :=
  { r with sh := shiftIn r.sh b &&& 0x7F, bitcnt := r.bitcnt + 1 }

/-- R145: `take_group(g)`: the nibble, and the registers with `corr` and `unc` updated. -/
def takeGroup (c : Cfg) (r : Rxf) (g : Codeword) : Except Fault (Nibble × Rxf) :=
  match dec c g with
  | some d => .ok (d.nibble, { r with corr := addCorrected r.corr d, unc := mergeUnc r.unc d })
  | none => .error .cfgIllFormed

/-- R153: `hdr[i] <- v`. -/
def storeHeaderByte (r : Rxf) (i : Nat) (v : Byte) : Except Fault Rxf :=
  match r.hdr.set? i v with
  | some h => .ok { r with hdr := h }
  | none => .error .outsideStore

/-- R155: `RXBUF[i] <- v`. -/
def storePayloadByte (r : Rxf) (i : Nat) (v : Byte) : Except Fault Rxf :=
  match r.rxbuf.store i v with
  | .ok m => .ok { r with rxbuf := m }
  | .error f => .error f

/-- R153, R155, Listing 1: where the byte of an odd-numbered group `k` goes: `hdr[k/2]` in `HEADER`, `RXBUF[k/2]` in `PAYLOAD`. -/
def storeByte (r : Rxf) (i : Nat) (v : Byte) : Except Fault Rxf :=
  if r.st = .header then storeHeaderByte r i v else storePayloadByte r i v

/-- R153, R155: what becomes of the nibble of group `k`. -/
def storeNibble (r : Rxf) (k : Nat) (nib : Nibble) : Except Fault Rxf :=
  if k % 2 = 0 then .ok { r with hi := nib } else storeByte r (k / 2) (joinNibbles r.hi nib)

/-- R152: when `n`, the bits counted so far, is a multiple of 7, group `n/7 - 1` is complete. -/
def completeGroup (c : Cfg) (r : Rxf) (n : Nat) : Except Fault Rxf :=
  if n % 7 = 0 then
    match takeGroup c r (groupOf r.sh) with
    | .ok (nib, r') => storeNibble r' (n / 7 - 1) nib
    | .error f => .error f
  else .ok r

/-- R154: the header is validated at its bit 56, after the writes of the last group. -/
def headerEnd (r : Rxf) (n : Nat) : Rxf × Option Event :=
  if n = 56 then
    if r.hdr.plen = 0 then (rxClear r, some .headerCorrupt)
    else ({ r with st := .payload, bitcnt := 0, sh := 0 }, none)
  else (r, none)

/-- R156: the payload ends at bit `14 * hdr[0]`. -/
def payloadEnd (r : Rxf) (n : Nat) : Rxf × Option Event :=
  if n = 14 * r.hdr.plen.toNat then ({ r with st := .endCheck, bitcnt := 0, sh := 0 }, none) else (r, none)

/-- R151 to R156: one bit in `HEADER` or `PAYLOAD`, `fin` being the test at the end of the state. -/
def groupBit (fin : Rxf → Nat → Rxf × Option Event) (c : Cfg) (r : Rxf) (b : Bool) : Except Fault (Rxf × Option Event) :=
  match completeGroup c (shiftGroup r b) (r.bitcnt.toNat + 1) with
  | .ok r' => .ok (fin r' (r.bitcnt.toNat + 1))
  | .error f => .error f

/-! ### State END_CHECK -/

/-- R157: the packet an emitting step builds from the registers before the step. -/
def packetOf (r : Rxf) (payload : List Byte) : DecodedPacket where
  sequenceNumber := r.hdr.seq
  payload := payload
  correctedBitCount := r.corr.toNat
  possibleUncorrectableError := r.unc

/-- R157, R158: one bit in `END_CHECK`. -/
def endBit (c : Cfg) (r : Rxf) (b : Bool) : Except Fault (Rxf × Option Event) :=
  if r.bitcnt.toNat + 1 = 8 then
    if endMatch c (shiftIn r.sh b) then
      match r.rxbuf.load r.hdr.plen.toNat with
      | .ok payload => .ok (rxClear r, some (.packetEmitted (packetOf r payload)))
      | .error f => .error f
    else .ok (rxClear r, some .endMarkerMismatch)
  else .ok ({ r with sh := shiftIn r.sh b, bitcnt := r.bitcnt + 1 }, none)

/-! ### The commands -/

/-- R147, Listing 1: one received bit, dispatched on `st`. -/
def rxStep (c : Cfg) (r : Rxf) (b : Bool) : Except Fault (Rxf × Option Event) :=
  match r.st with
  | .searching => .ok (searchBit c r b, none)
  | .header => groupBit headerEnd c r b
  | .payload => groupBit payloadEnd c r b
  | .endCheck => endBit c r b

/-- R144, R147: only an emission shows in the response. -/
def eventResponse : Event → Response
  | .packetEmitted pkt => .packet pkt
  | .headerCorrupt => .ok
  | .endMarkerMismatch => .ok

/-- R147: `RXBIT b`. -/
def execRxbit (b : Bool) (s : State) : Host.Outcome State Fault Refusal :=
  match rxStep s.cfg s.rx b with
  | .error f => .fault f
  | .ok (r, none) => respond .ok { s with rx := r }
  | .ok (r, some ev) =>
    match record ev s.stat with
    | .ok t => respond (eventResponse ev) { s with rx := r, stat := t }
    | .error f => .fault f

/-- R141: `NOP`. -/
def execNop (s : State) : Host.Outcome State Fault Refusal := respond .ok s

/-- R160: `RXRST`. -/
def execRxrst (s : State) : Host.Outcome State Fault Refusal := respond .ok { s with rx := rxClear s.rx }

end Sys2Proof.Machine
end

