-- ==== Sys2Proof/Machine/TxFramer.lean ====
section
/-! DEFINITION. The transmit packet framer and its commands `TXCLR`, `TXPUT`, `TXBUILD` (spec/41_tx_framer.md). -/

namespace Sys2Proof.Machine

/-- R72: `encbyte(B)`, the codewords of a byte's two nibbles, high nibble first, 14 bits. -/
def encByte (c : Cfg) (v : Byte) : Bits :=
  msbBits (enc c (highNibble v)) ++ msbBits (enc c (lowNibble v))

/-- R123: the header bytes of a message of `len` bytes. -/
def mkhdr (len : Nat) (q : Byte) : List Byte := [BitVec.ofNat 8 len, q, 0x00, 0x00]

/-- R124: the bits of a packet, or `InvalidPayloadSize`. -/
def build (c : Cfg) (msg : List Byte) (q : Byte) : Except CommandError Bits :=
  if msg.length = 0 ∨ bufBytes < msg.length then .error .invalidPayloadSize
  else
    .ok (msbBits c.preamble ++ msbBits c.startMarker ++
      (mkhdr msg.length q ++ msg).flatMap (encByte c) ++ msbBits c.endMarker)

/-- R126: staging is empty after every `TXBUILD`, on success and on failure. -/
def clearStaging (s : State) : State := { s with tx := { s.tx with txlen := 0 } }

/-- R121: `TXCLR`. -/
def execTxclr (s : State) : Host.Outcome State Fault Refusal := respond .ok (clearStaging s)

/-- R122: `TXPUT v`. -/
def execTxput (v : Byte) (s : State) : Host.Outcome State Fault Refusal :=
  if s.tx.txlen.toNat ≤ 254 then
    match s.tx.txbuf.store s.tx.txlen.toNat v with
    | .ok m => respond .ok { s with tx := { txlen := s.tx.txlen + 1, txbuf := m } }
    | .error f => .fault f
  else respond .ok { s with tx := { s.tx with txlen := 256 } }

/-- R125: `TXBUILD q`. -/
def execTxbuild (q : Byte) (s : State) : Host.Outcome State Fault Refusal :=
  if s.tx.txlen = 0 ∨ overflowMark s.tx.txlen then raise .invalidPayloadSize (clearStaging s)
  else
    match s.tx.txbuf.load s.tx.txlen.toNat with
    | .error f => .fault f
    | .ok msg =>
      match build s.cfg msg q with
      | .ok bits => respond (.bits bits) (clearStaging s)
      | .error e => raise e (clearStaging s)

end Sys2Proof.Machine
end

