-- ==== Sys2Proof/Machine/Dispatch.lean ====
section
/-! DEFINITION. The meaning of each command, one arm for each constructor of `Instr`. -/

namespace Sys2Proof.Machine

def exec (i : Instr) (s : State) : Host.Outcome State Fault Refusal :=
  match i with
  | .nop => Sys2Proof.Machine.execNop s
  | .enc n => Sys2Proof.Machine.execEnc n s
  | .dec c => Sys2Proof.Machine.execDec c s
  | .rxbit b => Sys2Proof.Machine.execRxbit b s
  | .rxrst => Sys2Proof.Machine.execRxrst s
  | .txput v => Sys2Proof.Machine.execTxput v s
  | .txbuild q => Sys2Proof.Machine.execTxbuild q s
  | .txclr => Sys2Proof.Machine.execTxclr s
  | .snap => Sys2Proof.Machine.execSnap s

end Sys2Proof.Machine
end

