-- ==== Sys2Proof/Machine/Step.lean ====
section
/-! DEFINITION. One step of the device: the next command word of the host is taken, decoded and executed
(spec/00_scope.md R7, R8). There is no program counter and no fetch from a memory (spec/10_state.md R22, spec/20_memory.md R65). -/

namespace Sys2Proof.Machine

/-- R7, R8: one atomic step. An illegal word answers `Error(IllegalCommand)` and changes nothing else (R82, R196).
With no command issued the device waits (R222): nothing changes and the step gives no response (DESIGN CHOICE, log 2). -/
def step (s : State) : Host.Outcome State Fault Refusal :=
  match s.cmds with
  | [] => .next { s with resp := none }
  | w :: rest =>
    match decode w with
    | .ok i => exec i { s with cmds := rest }
    | .error _ => raise .illegalCommand { s with cmds := rest }

/-- `s` with the host about to issue the command word `w` before everything it had still to issue (log 1).
Every command is 16 bits long (R78). -/
def State.withFetchWord (s : State) (nbits w : Nat) : State :=
  { s with cmds := BitVec.ofNat 16 (w % 2 ^ nbits) :: s.cmds }

/-- R61: the commands of a list executed one after another, from the state `s`; a stop ends the run. -/
def execAll : List Instr → State → Host.Outcome State Fault Refusal
  | [], s => .next s
  | i :: is, s =>
    match exec i s with
    | .next t => execAll is t
    | .fault f => .fault f
    | .refused r => .refused r

/-- R142, R87 (`RXBITS`): one `RXBIT` for each bit, in order. -/
def rxBits (bs : Bits) : List Instr := bs.map Instr.rxbit

end Sys2Proof.Machine
end

