-- ==== Sys2Proof/Machine/Asm.lean ====
section
/-! DEFINITION. The assembler's lines and pseudo-instructions (spec/30_encoding.md R86, R87), from the text of a line to the
commands it stands for. An answer of none is an assembler error, which is not a command (R86). Details of the text the spec
leaves open are in log 14. -/

namespace Sys2Proof.Machine

/-- One line of a program: a command with at most one operand (R86), or a pseudo-instruction (R87). -/
inductive AsmLine where
  | blank
  | command (mnemonic : String) (operand : Option Nat)
  | rxbits (s : Bits)
  | rxhex (n h : Nat)
  | txmsg (q : Nat) (bytes : List Nat)
  deriving DecidableEq, Repr

/-- R86: an operand that must fit `n` bits. -/
def asmOperand (n v : Nat) : Option (BitVec n) := if v < 2 ^ n then some (BitVec.ofNat n v) else none

/-- R86: the command of a mnemonic and an operand in range. -/
def asmCommand (mnemonic : String) (operand : Option Nat) : Option Instr :=
  match mnemonic, operand with
  | "NOP", none => some .nop
  | "ENC", some v => (asmOperand 4 v).map .enc
  | "DEC", some v => (asmOperand 7 v).map .dec
  | "RXBIT", some v => (asmOperand 1 v).map (fun b => .rxbit (b.getLsbD 0))
  | "RXRST", none => some .rxrst
  | "TXPUT", some v => (asmOperand 8 v).map .txput
  | "TXBUILD", some v => (asmOperand 8 v).map .txbuild
  | "TXCLR", none => some .txclr
  | "SNAP", none => some .snap
  | _, _ => none

/-- R87: `TXPUT v0`, …, `TXPUT vk`. -/
def asmPuts : List Nat → Option (List Instr)
  | [] => some []
  | v :: vs =>
    match asmOperand 8 v, asmPuts vs with
    | some b, some is => some (.txput b :: is)
    | _, _ => none

/-- R86, R87: the commands a line stands for, or none for an assembler error. -/
def AsmLine.expand : AsmLine → Option (List Instr)
  | .blank => some []
  | .command m o => (asmCommand m o).map (fun i => [i])
  | .rxbits s => some (rxBits s)
  | .rxhex n h => (asmOperand n h).map (fun v => rxBits (msbBits v))
  | .txmsg q bytes =>
    match asmOperand 8 q, asmPuts bytes with
    | some qb, some puts => some ([.txclr] ++ puts ++ [.txbuild qb])
    | _, _ => none

/-- R86: a line the assembler accepts. -/
def AsmLine.wf (l : AsmLine) : Bool := l.expand.isSome

/-! ### The text of a line -/

/-- The value of one digit, of either case. -/
def digitValue (ch : Char) : Option Nat :=
  let n := ch.toNat
  if 48 ≤ n ∧ n ≤ 57 then some (n - 48)
  else if 65 ≤ n ∧ n ≤ 70 then some (n - 55)
  else if 97 ≤ n ∧ n ≤ 102 then some (n - 87)
  else none

/-- The digits of a number in a base, after the value `acc` of the digits before them. -/
def digitsValue (base acc : Nat) : List Char → Option Nat
  | [] => some acc
  | ch :: cs =>
    match digitValue ch with
    | some d => if d < base then digitsValue base (base * acc + d) cs else none
    | none => none

/-- R86: a number in decimal, `0x` hexadecimal or `0b` binary. -/
def parseNumber : List Char → Option Nat
  | '0' :: 'x' :: d :: ds => digitsValue 16 0 (d :: ds)
  | '0' :: 'b' :: d :: ds => digitsValue 2 0 (d :: ds)
  | d :: ds => digitsValue 10 0 (d :: ds)
  | [] => none

/-- R87: a string of `0` and `1`. -/
def parseBits : List Char → Option Bits
  | [] => some []
  | ch :: cs =>
    match ch, parseBits cs with
    | '0', some bs => some (false :: bs)
    | '1', some bs => some (true :: bs)
    | _, _ => none

/-- R87: the number of `RXHEX`, hexadecimal and nothing else. DESIGN CHOICE (log 14): it has the prefix `0x` that R86 gives
hexadecimal, and is an assembler error without it. -/
def parseHex : List Char → Option Nat
  | '0' :: 'x' :: d :: ds => digitsValue 16 0 (d :: ds)
  | _ => none

/-- R86: what stands before a comment. -/
def stripComment (line : List Char) : List Char := line.takeWhile (· != ';')

/-- What separates words. -/
def isBlank (ch : Char) : Bool := ch == ' ' || ch == '\t'

/-- The words of a text, `cur` being the word under way (its characters in reverse). -/
def tokens (cur : List Char) : List Char → List (List Char)
  | [] => if cur.isEmpty then [] else [cur.reverse]
  | ch :: cs =>
    if isBlank ch then
      if cur.isEmpty then tokens [] cs else cur.reverse :: tokens [] cs
    else tokens (ch :: cur) cs

/-- R87: the pieces of a text between its commas; a text without a comma is one piece. -/
def splitCommas : List Char → List (List Char)
  | [] => [[]]
  | ch :: cs =>
    if ch == ',' then [] :: splitCommas cs
    else
      match splitCommas cs with
      | p :: ps => (ch :: p) :: ps
      | [] => [[ch]]

/-- R87: the operands of `TXMSG`, one number in each piece. -/
def parsePieces : List (List Char) → Option (List Nat)
  | [] => some []
  | p :: ps =>
    match tokens [] p, parsePieces ps with
    | [w], some ns => (parseNumber w).map (fun n => n :: ns)
    | _, _ => none

/-- R87: `TXMSG q, v0, …, vk`; the text is what follows the mnemonic, with exactly one comma between two operands. -/
def parseTxmsg (text : List Char) : Option AsmLine :=
  match parsePieces (splitCommas text) with
  | some (q :: vs) => some (.txmsg q vs)
  | _ => none

/-- R86, R87: a line from its mnemonic and the words after it, `TXMSG` apart. -/
def parseWords (m : String) (args : List (List Char)) : Option AsmLine :=
  match m, args with
  | "RXBITS", [s] => (parseBits s).map .rxbits
  | "RXHEX", [n, h] =>
    match parseNumber n, parseHex h with
    | some nv, some hv => some (.rxhex nv hv)
    | _, _ => none
  | "RXBITS", _ => none
  | "RXHEX", _ => none
  | m, [] => some (.command m none)
  | m, [t] => (parseNumber t).map (fun v => .command m (some v))
  | _, _ => none

/-- R86: one line of text. -/
def parseLine (line : List Char) : Option AsmLine :=
  let text := (stripComment line).dropWhile isBlank
  let m := String.ofList (text.takeWhile (fun ch => !isBlank ch))
  let rest := text.dropWhile (fun ch => !isBlank ch)
  if text.isEmpty then some .blank
  else if m == "TXMSG" then parseTxmsg rest
  else parseWords m (tokens [] rest)

/-- R86: the commands of one line of text, or none for an assembler error. -/
def assembleLine (line : String) : Option (List Instr) :=
  match parseLine line.toList with
  | some l => l.expand
  | none => none

/-- R86: one command or pseudo-instruction a line: the commands of a program, or none for an assembler error. -/
def assemble : List String → Option (List Instr)
  | [] => some []
  | l :: ls =>
    match assembleLine l, assemble ls with
    | some is, some rest => some (is ++ rest)
    | _, _ => none

end Sys2Proof.Machine
end

