-- ==== Sys2Proof/Machine/Conditions.lean ====
section
/-! DEFINITION. The condition of a step and its numeric code (spec/30_encoding.md R85, spec/60_exceptions.md R190, R199): an event,
a command error, or none. No step reads any of this; it is for a reader that wants numbers. -/

namespace Sys2Proof.Machine

/-- R144: the event of executing a command in a state: only an `RXBIT` step has one. -/
def eventOf (i : Instr) (s : State) : Option Event :=
  match i with
  | .rxbit b =>
    match rxStep s.cfg s.rx b with
    | .ok (_, ev) => ev
    | .error _ => none
  | .nop => none
  | .enc _ => none
  | .dec _ => none
  | .rxrst => none
  | .txput _ => none
  | .txbuild _ => none
  | .txclr => none
  | .snap => none

/-- R190 (a): the command error a response reports. -/
def Response.commandError : Response → Option CommandError
  | .error e => some e
  | .ok => none
  | .codeword _ => none
  | .decoded _ => none
  | .bits _ => none
  | .packet _ => none
  | .snapshot _ => none

/-- R85, R199: the code of what a step reports; a step has an event or a command error or neither, and neither is 0. -/
def conditionCode (ev : Option Event) (err : Option CommandError) : Nat :=
  match ev, err with
  | some ev, _ => ev.code
  | none, some err => err.code
  | none, none => 0

/-- R85: the code of the step that executes a command; none where the step stops. -/
def commandCode (i : Instr) (s : State) : Option Nat :=
  match exec i s with
  | .next t => some (conditionCode (eventOf i s) (t.resp.bind Response.commandError))
  | .fault _ => none
  | .refused _ => none

/-- R85: the code of the step that takes a command word; an illegal word is `IllegalCommand`. -/
def wordCode (w : Word) (s : State) : Option Nat :=
  match decode w with
  | .ok i => commandCode i s
  | .error _ => some (conditionCode none (some .illegalCommand))

end Sys2Proof.Machine
end

