-- ==== Sys2Proof/Safety.lean ====
section
/-! DEFINITION. What counts as a safe state, in the terms the claims use: the invariants of reachable states
(spec/10_state.md R37, with the ranges of R23, R25, R26, R31, R33 and the sums of spec/43_statistics.md R185), and
reachability from hard reset by any command sequence. -/

namespace Sys2Proof.Machine

/-- R37 (d): the groups completed in the packet under way. -/
def groupsDone (r : Rxf) : Nat :=
  match r.st with
  | .searching => 0
  | .header => r.bitcnt.toNat / 7
  | .payload => 8 + r.bitcnt.toNat / 7
  | .endCheck => 8 + 2 * r.hdr.plen.toNat

/-- R31: the bytes of `RXBUF` the packet under way has written. -/
def bytesDone (r : Rxf) : Nat :=
  match r.st with
  | .searching => 0
  | .header => 0
  | .payload => r.bitcnt.toNat / 14
  | .endCheck => r.hdr.plen.toNat

/-- R23: the number of bits after which the state `st` is left, so that `bitcnt` is below it at every step boundary. -/
def bitLimit (r : Rxf) : Nat :=
  match r.st with
  | .searching => 1
  | .header => 56
  | .payload => 14 * r.hdr.plen.toNat
  | .endCheck => 8

/-- R37 (a) to (e) with the ranges of R23, R25, R26 and the written part of `RXBUF` (R31). -/
structure RxInv (r : Rxf) : Prop where
  /-- R37 (a). -/
  searching_clear : r.st = .searching →
    r.sh = 0 ∧ r.bitcnt = 0 ∧ r.hi = 0 ∧ r.hdr = .zero ∧ r.corr = 0 ∧ r.unc = false
  /-- R37 (b). -/
  window_clear : r.st ≠ .searching → r.win = 0 ∧ r.wfill = 0
  /-- R37 (c). -/
  length_valid : r.st = .payload ∨ r.st = .endCheck → 1 ≤ r.hdr.plen.toNat
  /-- R37 (d). -/
  corr_le : r.corr.toNat ≤ groupsDone r
  /-- R37 (e). -/
  unc_clear : r.unc = false
  /-- R23. -/
  bitcnt_lt : r.bitcnt.toNat < bitLimit r
  /-- R25. -/
  wfill_le : r.wfill.toNat ≤ 24
  /-- R26. -/
  sh_top_clear : r.st = .header ∨ r.st = .payload → r.sh.getLsbD 7 = false
  /-- R50: the store is in canonical form. -/
  rxbuf_wf : r.rxbuf.wf = true
  /-- R31: what an emission will read has been written. -/
  rxbuf_written : ∀ i, i < bytesDone r → (r.rxbuf.get? i).isSome = true

/-- R37 (f) with the written part of `TXBUF` (R33). -/
structure TxInv (t : Txf) : Prop where
  /-- R37 (f). -/
  txlen_le : t.txlen.toNat ≤ 256
  /-- R50: the store is in canonical form. -/
  txbuf_wf : t.txbuf.wf = true
  /-- R33: what a build will read has been written. -/
  txbuf_written : ∀ i, i < t.txlen.toNat → i < bufBytes → (t.txbuf.get? i).isSome = true

/-- R185: the sum of `hist[c]` over all `c`. -/
def histTotal (h : Hist) : Nat := ((List.range histBins).map h.count).sum

/-- R185: the sum of `c * hist[c]` over all `c`. -/
def histWeighted (h : Hist) : Nat := ((List.range histBins).map (fun c => c * h.count c)).sum

/-- R185: the two sums, over a histogram in canonical form (R50). -/
structure StatInv (t : Stat) : Prop where
  hist_wf : t.hist.wf = true
  emitted_sum : t.nEmitted = histTotal t.hist
  corrected_sum : t.totalCorrected = histWeighted t.hist

/-- The invariant of a device: a well-formed `cfg` (R12) and the invariants of its three stateful blocks. -/
structure Inv (s : State) : Prop where
  cfg_wf : s.cfg.wf = true
  rx : RxInv s.rx
  tx : TxInv s.tx
  stat : StatInv s.stat

/-- The states a device built with `c` can be in: after hard reset, after the host has changed what it is about to issue,
after a step, and after another hard reset. -/
inductive Reachable (c : Cfg) : State → Prop where
  | reset : Reachable c (State.resetWith c)
  | issue {s : State} (ws : List Word) : Reachable c s → Reachable c { s with cmds := ws }
  | step {s t : State} : Reachable c s → step s = .next t → Reachable c t
  | hardReset {s : State} : Reachable c s → Reachable c (hardReset s)

/-- R185: the number of events the counters record. -/
def eventTotal (t : Stat) : Nat := t.nEmitted + t.nHeaderCorrupt + t.nEndMismatch

/-- R165: how many positions two bit sequences of equal length differ in. -/
def bitsApart (a b : Bits) : Nat := (List.zip a b).countP (fun p => p.1 != p.2)

/-- R57: `n` bits of a sequence from position `p` on. -/
def slice (s : Bits) (p n : Nat) : Bits := (s.drop p).take n

end Sys2Proof.Machine
end

