-- ==== Sys2Proof/Certificates/Slice0/Obligations.lean ====
section
/-! DEFINITION. The statements for the provers, in the order of the spec's files. `log n` is notes/assumptions/n.md. -/

open Sys2Proof Sys2Proof.Machine

/-! ### Reset -/

/-- R220, R38: hard reset writes every register to the value of the table. The contents of the two buffers are unspecified there
and nothing is said of them. -/
def Obligations.HardResetWritesTheTable : Prop :=
  ∀ s : State,
    let t := hardReset s
    t.cfg = s.cfg ∧ t.rx.st = .searching ∧ t.rx.win = 0 ∧ t.rx.wfill = 0 ∧ t.rx.sh = 0 ∧ t.rx.bitcnt = 0 ∧ t.rx.hi = 0 ∧
      t.rx.hdr.plen = 0 ∧ t.rx.hdr.seq = 0 ∧ t.rx.hdr.reserved0 = 0 ∧ t.rx.hdr.reserved1 = 0 ∧ t.rx.corr = 0 ∧
      t.rx.unc = false ∧ t.tx.txlen = 0 ∧ t.stat.nEmitted = 0 ∧ t.stat.nHeaderCorrupt = 0 ∧ t.stat.nEndMismatch = 0 ∧
      t.stat.totalCorrected = 0 ∧ (∀ c, t.stat.hist.count c = 0) ∧ hardReset State.reset = State.reset

/-- The invariant holds right after hard reset of any well-formed device. -/
def Obligations.ResetMeetsInvariant : Prop :=
  ∀ c : Cfg, c.wf = true → Inv (State.resetWith c)

/-! ### Command words (spec/30_encoding.md Part B) -/

/-- R80, R81: decoding and encoding agree, in both directions, on every word and every command. -/
def Obligations.DecodeIsInverseOfEncode : Prop :=
  ∀ (w : Word) (i : Instr), decode w = .ok i ↔ encode i = w

/-- R81: a word is a command exactly when it selects a row of the opcode map, the row is the command's, and the rows are
disjoint. -/
def Obligations.DecodeFollowsOpcodeMap : Prop :=
  ∀ w : Word,
    ((∃ i, decode w = .ok i) ↔ ∃ row ∈ opcodeRows, w &&& row.2.1 = row.2.2) ∧
    (∀ i, ∀ row ∈ opcodeRows, decode w = .ok i → w &&& row.2.1 = row.2.2 → row.1 = mnemonic i) ∧
    (∀ row ∈ opcodeRows, ∀ row' ∈ opcodeRows, w &&& row.2.1 = row.2.2 → w &&& row'.2.1 = row'.2.2 → row = row')

/-- R80: the operand is the low bits of the word, with no extension, scaling, shift or reordering. -/
def Obligations.OperandIsLowBitsOfWord : Prop :=
  ∀ w : Word,
    (∀ b, decode w = .ok (.rxbit b) → b = w.getLsbD 0 ∧ w.toNat = 0x3000 + b.toNat) ∧
    (∀ n, decode w = .ok (.enc n) → n.toNat = w.toNat % 16 ∧ w.toNat = 0x1000 + n.toNat) ∧
    (∀ c, decode w = .ok (.dec c) → c.toNat = w.toNat % 128 ∧ w.toNat = 0x2000 + c.toNat) ∧
    (∀ v, decode w = .ok (.txput v) → v.toNat = w.toNat % 256 ∧ w.toNat = 0x5000 + v.toNat) ∧
    (∀ q, decode w = .ok (.txbuild q) → q.toNat = w.toNat % 256 ∧ w.toNat = 0x6000 + q.toNat)

/-- R196: a word that selects no row answers `Error(IllegalCommand)` and changes nothing, and the next command is executed. -/
def Obligations.IllegalWordsChangeNothing : Prop :=
  ∀ (s : State) (w : Word) (rest : List Word), s.cmds = w :: rest → (∀ row ∈ opcodeRows, w &&& row.2.1 ≠ row.2.2) →
    step s = .next { s with cmds := rest, resp := some (.error .illegalCommand) }

/-- Of the 65536 words 662 are legal: the spec's own count from the masks of R81 (R82). -/
def Obligations.LegalWordsAre662 : Prop :=
  ∃ legal : List Word, legal.Nodup ∧ legal.length = 662 ∧ ∀ w, w ∈ legal ↔ ∃ i, decode w = .ok i

/-- Words written out from the patterns of R81 and the table V60 of spec/95_test_vectors.md. -/
def Obligations.SpecWordsDecode : Prop :=
  decode 0b0000000000000000 = .ok .nop ∧ decode 0b0001000000001011 = .ok (.enc 0xB) ∧
  decode 0b0010000001011101 = .ok (.dec 0x5D) ∧ decode 0b0011000000000001 = .ok (.rxbit true) ∧
  decode 0b0100000000000000 = .ok .rxrst ∧ decode 0b0101000001001000 = .ok (.txput 0x48) ∧
  decode 0b0110000000000001 = .ok (.txbuild 0x01) ∧ decode 0b0111000000000000 = .ok .txclr ∧
  decode 0b1000000000000000 = .ok .snap ∧
  decode 0x0001 = .error .reservedBit ∧ decode 0x1010 = .error .reservedBit ∧ decode 0x2080 = .error .reservedBit ∧
  decode 0x3002 = .error .reservedBit ∧ decode 0x4001 = .error .reservedBit ∧ decode 0x5100 = .error .reservedBit ∧
  decode 0x7800 = .error .reservedBit ∧ decode 0x9000 = .error .reservedOpcode ∧ decode 0xFFFF = .error .reservedOpcode

/-! ### The step -/

/-- R7, R61: a step takes the host's next command word and executes the command it stands for. -/
def Obligations.StepRunsDecodedCommand : Prop :=
  ∀ (s : State) (w : Word) (rest : List Word) (i : Instr),
    s.cmds = w :: rest → decode w = .ok i → step s = exec i { s with cmds := rest }

/-- The model's own choice (log 2): while the host issues no command a step changes nothing and gives no response. -/
def Obligations.WaitingChangesNothing : Prop :=
  ∀ s : State, s.cmds = [] → step s = .next { s with resp := none }

/-- R61: the state after a command sequence is the fold of the step function over the sequence. -/
def Obligations.RunIsFoldOfCommands : Prop :=
  ∀ (is : List Instr) (rest : List Word) (s : State),
    Host.Core.run Sys2Proof.core is.length ({ s with cmds := is.map encode ++ rest } : State) =
      execAll is { s with cmds := rest }

/-- R9: no command writes a field of `cfg`. -/
def Obligations.NoStepWritesCfg : Prop :=
  ∀ s t : State, step s = .next t → t.cfg = s.cfg

/-- From every reachable state every one of the 65536 command words has exactly one defined step: the spec's own inference (R202). -/
def Obligations.EveryWordHasAStep : Prop :=
  ∀ (c : Cfg) (s : State) (w : Word) (rest : List Word), c.wf = true → Reachable c s →
    ∃ t, step { s with cmds := w :: rest } = .next t

/-- Every step keeps the invariant. -/
def Obligations.StepKeepsInvariant : Prop :=
  ∀ s t : State, Inv s → step s = .next t → Inv t

/-- The invariants (a) to (f) of every state reachable from hard reset by any command sequence, and the consequence: the spec's own
inference from the rules of files 41 and 42 (R37). -/
def Obligations.ReachableStatesMeetR37 : Prop :=
  ∀ (c : Cfg) (s : State), c.wf = true → Reachable c s →
    (s.rx.st = .searching → s.rx.sh = 0 ∧ s.rx.bitcnt = 0 ∧ s.rx.hi = 0 ∧ s.rx.hdr = ⟨0, 0, 0, 0⟩ ∧ s.rx.corr = 0 ∧
      s.rx.unc = false) ∧
    (s.rx.st ≠ .searching → s.rx.win = 0 ∧ s.rx.wfill = 0) ∧
    (s.rx.st = .payload ∨ s.rx.st = .endCheck → 1 ≤ s.rx.hdr.plen.toNat) ∧
    s.rx.corr.toNat ≤ groupsDone s.rx ∧
    s.rx.unc = false ∧
    s.tx.txlen.toNat ≤ 256 ∧
    (∀ t : State, exec .rxrst s = .next t → t.rx = { Rxf.reset with rxbuf := t.rx.rxbuf }) ∧
    (∀ (b : Bool) (t : State) (ev : Event), eventOf (.rxbit b) s = some ev → exec (.rxbit b) s = .next t →
      t.rx = { Rxf.reset with rxbuf := t.rx.rxbuf })

/-! ### Codec (spec/40_hamming_codec.md) -/

/-- R102, R70, R71: `ENC n` responds with the codeword whose data bits are `n` and whose parity bits are the parities of `n`
under the masks; no state changes. -/
def Obligations.EncRespondsCodeword : Prop :=
  ∀ (n : Nibble) (s : State), ∃ c : Codeword,
    exec (.enc n) s = .next { s with resp := some (.codeword c) } ∧
    (∀ j, j < 4 → c.getLsbD (3 + j) = n.getLsbD j) ∧
    (c.getLsbD 2 = true ↔ popcount (n &&& s.cfg.pmask2) % 2 = 1) ∧
    (c.getLsbD 1 = true ↔ popcount (n &&& s.cfg.pmask1) % 2 = 1) ∧
    (c.getLsbD 0 = true ↔ popcount (n &&& s.cfg.pmask0) % 2 = 1) ∧
    (s.cfg = cfg0 →
      c.getLsbD 2 = ((n.getLsbD 3 ^^ n.getLsbD 2) ^^ n.getLsbD 1) ∧
      c.getLsbD 1 = ((n.getLsbD 3 ^^ n.getLsbD 2) ^^ n.getLsbD 0) ∧
      c.getLsbD 0 = ((n.getLsbD 3 ^^ n.getLsbD 1) ^^ n.getLsbD 0) ∧
      (n = 0 → c = 0x00) ∧ (n = 15 → c = 0x7F) ∧ (n = 0xB → c = 0x59))

/-- The sixteen codewords under `cfg0`, with their weights, and linearity and minimum distance 3 of every well-formed code: the
spec's own inference from R101 and R12 (R103). -/
def Obligations.CodeIsLinearOfDistanceThree : Prop :=
  (List.range 16).map (fun n => enc cfg0 (BitVec.ofNat 4 n)) =
    [0x00, 0x0B, 0x15, 0x1E, 0x26, 0x2D, 0x33, 0x38, 0x47, 0x4C, 0x52, 0x59, 0x61, 0x6A, 0x74, 0x7F] ∧
  (∀ w, (List.range 16).countP (fun n => popcount (enc cfg0 (BitVec.ofNat 4 n)) == w) =
    if w = 0 ∨ w = 7 then 1 else if w = 3 ∨ w = 4 then 7 else 0) ∧
  (∀ c : Cfg, c.wf = true →
    (∀ a b : Nibble, enc c (a ^^^ b) = enc c a ^^^ enc c b) ∧
    (∀ a b : Nibble, a ≠ b → 3 ≤ hd (enc c a) (enc c b)) ∧
    (∃ a b : Nibble, a ≠ b ∧ hd (enc c a) (enc c b) = 3))

/-- R104: the syndrome compares each parity with the received parity bit, is zero exactly on the codewords, and depends on the
error pattern alone. That it is zero exactly on the codewords is the spec's own inference. -/
def Obligations.SyndromeDependsOnErrorAlone : Prop :=
  ∀ (c : Cfg) (w : Codeword),
    (∀ i, i < 3 → (syn c w).getLsbD i = (parityBit c (dataBits w) i ^^ w.getLsbD i)) ∧
    (syn c w = 0 ↔ ∃ d, w = enc c d) ∧
    (∀ v : Codeword, syn c (w ^^^ v) = syn c w ^^^ syn c v) ∧
    (∀ (d : Nibble) (e : Codeword), syn c (enc c d ^^^ e) = syn c e) ∧
    (c = cfg0 →
      syn c w = BitVec.ofBool (((w.getLsbD 6 ^^ w.getLsbD 5) ^^ w.getLsbD 4) ^^ w.getLsbD 2) ++
        BitVec.ofBool (((w.getLsbD 6 ^^ w.getLsbD 5) ^^ w.getLsbD 3) ^^ w.getLsbD 1) ++
        BitVec.ofBool (((w.getLsbD 6 ^^ w.getLsbD 4) ^^ w.getLsbD 3) ^^ w.getLsbD 0))

/-- R105: every non-zero syndrome is the column of exactly one bit, the bit `pos` gives. The values under `cfg0` are the spec's own
inference. -/
def Obligations.PosIsTheBitOfTheColumn : Prop :=
  (∀ c : Cfg, c.wf = true → ∀ s : Syndrome, s ≠ 0 →
    ∃ i, i < 7 ∧ pos c s = some i ∧ ∀ j, j < 7 → (syn c (1#7 <<< j) = s ↔ j = i)) ∧
  pos cfg0 0b111 = some 6 ∧ pos cfg0 0b110 = some 5 ∧ pos cfg0 0b101 = some 4 ∧ pos cfg0 0b011 = some 3 ∧
  pos cfg0 0b100 = some 2 ∧ pos cfg0 0b010 = some 1 ∧ pos cfg0 0b001 = some 0

/-- R107, R106: `DEC c` responds with the nibble of `c` when the syndrome is zero, and otherwise with the nibble after the one
bit whose column is the syndrome is flipped; no state changes. -/
def Obligations.DecRespondsCorrectedNibble : Prop :=
  ∀ (c : Codeword) (s : State), s.cfg.wf = true →
    ∃ r : DecResult, exec (.dec c) s = .next { s with resp := some (.decoded r) } ∧
      (syn s.cfg c = 0 → r = ⟨c.extractLsb' 3 4, false, .zero⟩) ∧
      (syn s.cfg c ≠ 0 → ∃ i, i < 7 ∧ syn s.cfg (1#7 <<< i) = syn s.cfg c ∧
        r = ⟨(c ^^^ (1#7 <<< i)).extractLsb' 3 4, true, .one⟩) ∧
      (s.cfg = cfg0 → c = 0x5D → r = ⟨0xB, true, .one⟩)

/-- Clean codewords, single flips, and perfection, for every well-formed `cfg`: the spec's own inference from R101, R104, R105 and
R106 (R108). -/
def Obligations.DecUndoesEverySingleFlip : Prop :=
  ∀ c : Cfg, c.wf = true →
    (∀ n : Nibble, dec c (enc c n) = some ⟨n, false, .zero⟩) ∧
    (∀ (n : Nibble) (i : Nat), i < 7 → dec c (enc c n ^^^ (1#7 <<< i)) = some ⟨n, true, .one⟩) ∧
    (∀ w : Codeword, ∃ n : Nibble, w = enc c n ∨ ∃ i, i < 7 ∧ w = enc c n ^^^ (1#7 <<< i)) ∧
    (∀ (n m : Nibble) (i j : Nat), i < 7 → j < 7 →
      enc c n ^^^ (1#7 <<< i) ≠ enc c m ∧
      (enc c n ^^^ (1#7 <<< i) = enc c m ^^^ (1#7 <<< j) → n = m ∧ i = j))

/-- Two flipped bits are taken for one and give a wrong nibble; three flipped bits give a wrong nibble too, reported as clean or as
one correction: the spec's own inference from R104 to R106 (R109). -/
def Obligations.DecMiscorrectsTwoAndThreeFlips : Prop :=
  (∀ c : Cfg, c.wf = true → ∀ (n : Nibble) (i j : Nat), i < 7 → j < 7 → i ≠ j →
    (∃ m, m ≠ n ∧ dec c (enc c n ^^^ (1#7 <<< i) ^^^ (1#7 <<< j)) = some ⟨m, true, .one⟩ ∧
      hd (enc c m) (enc c n) = 3) ∧
    (∀ k, k < 7 → k ≠ i → k ≠ j →
      ∃ m, m ≠ n ∧
        dec c (enc c n ^^^ (1#7 <<< i) ^^^ (1#7 <<< j) ^^^ (1#7 <<< k)) =
          some (if (syn c (1#7 <<< i) ^^^ syn c (1#7 <<< j)) ^^^ syn c (1#7 <<< k) = 0 then ⟨m, false, .zero⟩
            else ⟨m, true, .one⟩))) ∧
  dec cfg0 0x5C = some ⟨0x9, true, .one⟩

/-- `dec` never answers `uncertain`, and no emitted packet carries the flag: the spec's own inference (R110, spec/90_conflicts.md C1),
and the model's choice among the two treatments of U1 (log 10). -/
def Obligations.UncertainIsNeverReported : Prop :=
  (∀ (c : Cfg) (w : Codeword) (r : DecResult), dec c w = some r → r.errorCount ≠ .uncertain) ∧
  (∀ (s t : State) (b : Bool) (pkt : DecodedPacket), Inv s → exec (.rxbit b) s = .next t →
    t.resp = some (.packet pkt) → pkt.possibleUncorrectableError = false)

/-- The model's own stop (log 5): `DEC` stops only when the non-zero syndrome is the column of no bit. -/
def Obligations.DecStopsOnlyWithoutColumn : Prop :=
  ∀ (c : Codeword) (s : State) (f : Fault),
    exec (.dec c) s = .fault f ↔
      f = .cfgIllFormed ∧ syn s.cfg c ≠ 0 ∧ ∀ i, i < 7 → syn s.cfg (1#7 <<< i) ≠ syn s.cfg c

/-! ### Transmit framer (spec/41_tx_framer.md) -/

/-- R121: `TXCLR` sets `txlen` to 0 and changes nothing else; the response is `Ok`. -/
def Obligations.TxclrEmptiesStaging : Prop :=
  ∀ s : State,
    exec .txclr s = .next { s with tx := { txlen := 0, txbuf := s.tx.txbuf }, resp := some .ok }

/-- R122: `TXPUT v` stores `v` at `TXBUF[txlen]` and counts it, or drops it and sets the overflow mark. -/
def Obligations.TxputStagesOneByte : Prop :=
  ∀ (v : Byte) (s : State),
    (s.tx.txlen.toNat ≤ 254 →
      ∃ m : Memory, exec (.txput v) s = .next { s with tx := { txlen := s.tx.txlen + 1, txbuf := m }, resp := some .ok } ∧
        (s.tx.txlen + 1).toNat = s.tx.txlen.toNat + 1 ∧
        m.get? s.tx.txlen.toNat = some v ∧ ∀ a, a ≠ s.tx.txlen.toNat → m.get? a = s.tx.txbuf.get? a) ∧
    (254 < s.tx.txlen.toNat →
      exec (.txput v) s = .next { s with tx := { txlen := 256, txbuf := s.tx.txbuf }, resp := some .ok })

/-- R195: a `TXBUILD` with nothing staged, or with more than 255 bytes offered, responds `Error(InvalidPayloadSize)`, produces no
bit, empties staging and touches nothing else. -/
def Obligations.TxbuildRefusesBadLength : Prop :=
  ∀ (q : Byte) (s : State), s.tx.txlen = 0 ∨ s.tx.txlen = 256 →
    exec (.txbuild q) s =
      .next { s with tx := { txlen := 0, txbuf := s.tx.txbuf }, resp := some (.error .invalidPayloadSize) }

/-- R125, R124: `TXBUILD q` with 1 to 255 staged bytes responds with the bits of the packet and empties staging. -/
def Obligations.TxbuildSendsStagedPacket : Prop :=
  ∀ (q : Byte) (s : State) (msg : List Byte), 1 ≤ s.tx.txlen.toNat → s.tx.txlen.toNat ≤ 255 →
    msg.length = s.tx.txlen.toNat → (∀ i, i < msg.length → s.tx.txbuf.get? i = msg[i]?) →
    ∃ bits : Bits,
      exec (.txbuild q) s = .next { s with tx := { txlen := 0, txbuf := s.tx.txbuf }, resp := some (.bits bits) } ∧
      bits.length = 88 + 14 * msg.length ∧
      bits = msbBits s.cfg.preamble ++ msbBits s.cfg.startMarker ++
        ([BitVec.ofNat 8 msg.length, q, 0x00, 0x00] ++ msg).flatMap
          (fun v => msbBits (enc s.cfg (v.extractLsb' 4 4)) ++ msbBits (enc s.cfg (v.extractLsb' 0 4))) ++
        msbBits s.cfg.endMarker

/-- R126: `TXBUILD` always leaves `txlen = 0`, on success and on failure. -/
def Obligations.TxbuildLeavesStagingEmpty : Prop :=
  ∀ (q : Byte) (s t : State), exec (.txbuild q) s = .next t → t.tx.txlen = 0 ∧ t.tx.txbuf = s.tx.txbuf

/-- R75: where each field of a packet stands on the wire. -/
def Obligations.PacketFieldsOnTheWire : Prop :=
  ∀ (c : Cfg) (msg : List Byte) (q : Byte), 1 ≤ msg.length → msg.length ≤ 255 →
    ∃ s : Bits, build c msg q = .ok s ∧ s.length = 88 + 14 * msg.length ∧
      slice s 0 16 = msbBits c.preamble ∧ slice s 16 8 = msbBits c.startMarker ∧
      slice s 24 56 = encByte c (BitVec.ofNat 8 msg.length) ++ encByte c q ++ encByte c 0x00 ++ encByte c 0x00 ∧
      (∀ i v, msg[i]? = some v → slice s (80 + 14 * i) 14 = encByte c v) ∧
      slice s (80 + 14 * msg.length) 8 = msbBits c.endMarker

/-- R120, R122, R124, R125: a message of any length staged byte by byte after `TXCLR` is built as `build` says. -/
def Obligations.StagedMessageIsBuilt : Prop :=
  ∀ (s : State) (msg : List Byte) (q : Byte), ∃ t,
    execAll ([Instr.txclr] ++ msg.map Instr.txput ++ [Instr.txbuild q]) s = .next t ∧
    t.cfg = s.cfg ∧ t.rx = s.rx ∧ t.stat = s.stat ∧ t.cmds = s.cmds ∧ t.tx.txlen = 0 ∧
    (msg.length = 0 ∨ 255 < msg.length → t.resp = some (.error .invalidPayloadSize)) ∧
    (1 ≤ msg.length → msg.length ≤ 255 → ∃ bits, build s.cfg msg q = .ok bits ∧ t.resp = some (.bits bits))

/-- The model's own stops (log 6, log 7) of `TXBUILD`: exactly when it stops, and that the invariant, which holds in every
reachable state, excludes both. -/
def Obligations.TxbuildStopsOutOfReach : Prop :=
  ∀ (q : Byte) (s : State) (f : Fault),
    (exec (.txbuild q) s = .fault f ↔
      (f = .outsideStore ∧ 256 < s.tx.txlen.toNat) ∨
      (f = .unwrittenByte ∧ s.tx.txlen.toNat ≤ 255 ∧ ∃ i, i < s.tx.txlen.toNat ∧ s.tx.txbuf.get? i = none)) ∧
    (Inv s → exec (.txbuild q) s ≠ .fault f)

/-! ### Receive framer (spec/42_rx_sync_framer.md) -/

/-- R141: `NOP` holds all state; the response is `Ok`. -/
def Obligations.NopHoldsAllState : Prop :=
  ∀ s : State, exec .nop s = .next { s with resp := some .ok }

/-- R160, R146: `RXRST` performs `rx_clear`, keeps `RXBUF`, and touches neither staging nor the counters. -/
def Obligations.RxrstClearsReceiver : Prop :=
  ∀ s : State,
    exec .rxrst s = .next { s with
      rx := { st := .searching, win := 0, wfill := 0, sh := 0, bitcnt := 0, hi := 0, hdr := ⟨0, 0, 0, 0⟩, corr := 0,
              unc := false, rxbuf := s.rx.rxbuf }
      resp := some .ok }

/-- R148, R149, R150: one bit in `SEARCHING`. -/
def Obligations.SearchingSlidesTheWindow : Prop :=
  ∀ (b : Bool) (s : State), s.rx.st = .searching →
    let w : BitVec 24 := s.rx.win <<< 1 ||| (BitVec.ofBool b).setWidth 24
    let f : Nat := min (s.rx.wfill.toNat + 1) 24
    (f = 24 ∧ hd w (s.cfg.preamble ++ s.cfg.startMarker) ≤ s.cfg.syncTol →
      exec (.rxbit b) s = .next { s with
        rx := { st := .header, win := 0, wfill := 0, sh := 0, bitcnt := 0, hi := 0, hdr := ⟨0, 0, 0, 0⟩, corr := 0,
                unc := false, rxbuf := s.rx.rxbuf }
        resp := some .ok }) ∧
    (¬ (f = 24 ∧ hd w (s.cfg.preamble ++ s.cfg.startMarker) ≤ s.cfg.syncTol) →
      exec (.rxbit b) s = .next { s with rx := { s.rx with win := w, wfill := BitVec.ofNat 5 f }, resp := some .ok })

/-- R151, R152: in `HEADER` and `PAYLOAD`, a bit that does not complete a group writes only `sh` and `bitcnt`. -/
def Obligations.BitInsideGroupOnlyShifts : Prop :=
  ∀ (b : Bool) (s : State), s.rx.st = .header ∨ s.rx.st = .payload → (s.rx.bitcnt.toNat + 1) % 7 ≠ 0 →
    exec (.rxbit b) s = .next { s with
      rx := { s.rx with sh := (s.rx.sh <<< 1 ||| (BitVec.ofBool b).setWidth 8) &&& 0x7F, bitcnt := s.rx.bitcnt + 1 }
      resp := some .ok }

/-- R153, R154: a bit that completes a group of the header: which register its nibble goes to, and the validation at bit 56. -/
def Obligations.HeaderGroupCompletes : Prop :=
  ∀ (b : Bool) (s : State), s.cfg.wf = true → s.rx.st = .header → s.rx.bitcnt.toNat < 56 →
    (s.rx.bitcnt.toNat + 1) % 7 = 0 →
    let n := s.rx.bitcnt.toNat + 1
    let k := n / 7 - 1
    let sh' := (s.rx.sh <<< 1 ||| (BitVec.ofBool b).setWidth 8) &&& 0x7F
    ∃ (d : DecResult) (hdr' : Header), dec s.cfg (sh'.extractLsb' 0 7) = some d ∧
      (k % 2 = 0 → hdr' = s.rx.hdr) ∧
      (k % 2 = 1 → hdr'.get? (k / 2) = some (s.rx.hi ++ d.nibble) ∧ ∀ j, j ≠ k / 2 → hdr'.get? j = s.rx.hdr.get? j) ∧
      let r : Rxf := { s.rx with
        sh := sh', bitcnt := s.rx.bitcnt + 1, corr := s.rx.corr + (BitVec.ofBool d.corrected).setWidth 10
        unc := s.rx.unc || d.errorCount == .uncertain, hi := if k % 2 = 0 then d.nibble else s.rx.hi, hdr := hdr' }
      (n < 56 → exec (.rxbit b) s = .next { s with rx := r, resp := some .ok }) ∧
      (n = 56 → hdr'.plen = 0 →
        exec (.rxbit b) s = .next { s with
          rx := { Rxf.reset with rxbuf := s.rx.rxbuf }
          stat := { s.stat with nHeaderCorrupt := s.stat.nHeaderCorrupt + 1 }
          resp := some .ok }) ∧
      (n = 56 → hdr'.plen ≠ 0 →
        exec (.rxbit b) s = .next { s with rx := { r with st := .payload, bitcnt := 0, sh := 0 }, resp := some .ok })

/-- R155, R156: a bit that completes a group of the payload: where its nibble goes, and the end of the payload. -/
def Obligations.PayloadGroupCompletes : Prop :=
  ∀ (b : Bool) (s : State), s.cfg.wf = true → s.rx.st = .payload → s.rx.bitcnt.toNat < 14 * s.rx.hdr.plen.toNat →
    (s.rx.bitcnt.toNat + 1) % 7 = 0 →
    let n := s.rx.bitcnt.toNat + 1
    let k := n / 7 - 1
    let sh' := (s.rx.sh <<< 1 ||| (BitVec.ofBool b).setWidth 8) &&& 0x7F
    ∃ (d : DecResult) (m : Memory), dec s.cfg (sh'.extractLsb' 0 7) = some d ∧
      (k % 2 = 0 → m = s.rx.rxbuf) ∧
      (k % 2 = 1 → m.get? (k / 2) = some (s.rx.hi ++ d.nibble) ∧ ∀ a, a ≠ k / 2 → m.get? a = s.rx.rxbuf.get? a) ∧
      let r : Rxf := { s.rx with
        sh := sh', bitcnt := s.rx.bitcnt + 1, corr := s.rx.corr + (BitVec.ofBool d.corrected).setWidth 10
        unc := s.rx.unc || d.errorCount == .uncertain, hi := if k % 2 = 0 then d.nibble else s.rx.hi, rxbuf := m }
      (n ≠ 14 * s.rx.hdr.plen.toNat → exec (.rxbit b) s = .next { s with rx := r, resp := some .ok }) ∧
      (n = 14 * s.rx.hdr.plen.toNat →
        exec (.rxbit b) s = .next { s with rx := { r with st := .endCheck, bitcnt := 0, sh := 0 }, resp := some .ok })

/-- R157, R158: one bit in `END_CHECK`: collecting, emission, and mismatch; nine end bytes match. -/
def Obligations.EndCheckEmitsOrDiscards : Prop :=
  (∀ (b : Bool) (s : State) (payload : List Byte), s.rx.st = .endCheck → s.rx.bitcnt.toNat < 8 →
    payload.length = s.rx.hdr.plen.toNat → (∀ i, i < payload.length → s.rx.rxbuf.get? i = payload[i]?) →
    s.rx.corr.toNat ≤ 518 →
    let e : BitVec 8 := s.rx.sh <<< 1 ||| (BitVec.ofBool b).setWidth 8
    (s.rx.bitcnt.toNat + 1 < 8 →
      exec (.rxbit b) s = .next { s with rx := { s.rx with sh := e, bitcnt := s.rx.bitcnt + 1 }, resp := some .ok }) ∧
    (s.rx.bitcnt.toNat + 1 = 8 → hd e s.cfg.endMarker ≤ s.cfg.endTol →
      ∃ h : Hist, h.count s.rx.corr.toNat = s.stat.hist.count s.rx.corr.toNat + 1 ∧
        (∀ c, c ≠ s.rx.corr.toNat → h.count c = s.stat.hist.count c) ∧
        exec (.rxbit b) s = .next { s with
          rx := { Rxf.reset with rxbuf := s.rx.rxbuf }
          stat := { s.stat with
            nEmitted := s.stat.nEmitted + 1
            totalCorrected := s.stat.totalCorrected + s.rx.corr.toNat
            hist := h }
          resp := some (.packet ⟨s.rx.hdr.seq, payload, s.rx.corr.toNat, s.rx.unc⟩) }) ∧
    (s.rx.bitcnt.toNat + 1 = 8 → s.cfg.endTol < hd e s.cfg.endMarker →
      exec (.rxbit b) s = .next { s with
        rx := { Rxf.reset with rxbuf := s.rx.rxbuf }
        stat := { s.stat with nEndMismatch := s.stat.nEndMismatch + 1 }
        resp := some .ok })) ∧
  (∀ c : Cfg, c.wf = true → c.endTol = 1 ∧
    (List.range 256).countP (fun e => hd (BitVec.ofNat 8 e) c.endMarker ≤ c.endTol) = 9) ∧
  (∀ e : Byte, hd e cfg0.endMarker ≤ 1 ↔
    e ∈ ([0x1D, 0x1C, 0x1F, 0x19, 0x15, 0x0D, 0x3D, 0x5D, 0x9D] : List Byte))

/-- R147: `RXBIT` never fails and never refuses a bit; it responds with a packet or with `Ok`. -/
def Obligations.RxbitTakesEveryBit : Prop :=
  ∀ (b : Bool) (s : State), Inv s →
    ∃ t, exec (.rxbit b) s = .next t ∧
      ((∃ pkt, eventOf (.rxbit b) s = some (.packetEmitted pkt) ∧ t.resp = some (.packet pkt)) ∨
        ((∀ pkt, eventOf (.rxbit b) s ≠ some (.packetEmitted pkt)) ∧ t.resp = some .ok))

/-- The frame of `RXBIT`: `cfg`, staging and the commands to come stay; a byte of `RXBUF` changes only in `PAYLOAD`, in the step that
completes the second group of a byte, and only at that byte's index; the header bytes change only in `HEADER` or by being
cleared; the window changes only in `SEARCHING`. -/
def Obligations.RxbitFrame : Prop :=
  ∀ (b : Bool) (s t : State), exec (.rxbit b) s = .next t →
    t.cfg = s.cfg ∧ t.tx = s.tx ∧ t.cmds = s.cmds ∧
    (∀ a, ¬ (s.rx.st = .payload ∧ (s.rx.bitcnt.toNat + 1) % 14 = 0 ∧ a = ((s.rx.bitcnt.toNat + 1) / 7 - 1) / 2) →
      t.rx.rxbuf.get? a = s.rx.rxbuf.get? a) ∧
    (s.rx.st ≠ .header → t.rx.hdr = s.rx.hdr ∨ t.rx = { Rxf.reset with st := t.rx.st, rxbuf := t.rx.rxbuf }) ∧
    (s.rx.st ≠ .searching → (t.rx.win = s.rx.win ∧ t.rx.wfill = s.rx.wfill) ∨
      t.rx = { Rxf.reset with rxbuf := t.rx.rxbuf }) ∧
    (s.rx.st = .searching ∨ s.rx.st = .endCheck → t.rx.corr = s.rx.corr ∧ t.rx.hi = s.rx.hi ∧ t.rx.unc = s.rx.unc ∨
      t.rx = { Rxf.reset with st := t.rx.st, rxbuf := t.rx.rxbuf })

/-- The model's own stops (log 5, log 6, log 7) of `RXBIT`: exactly when it stops, and that the invariant, which holds in every
reachable state, excludes them all. -/
def Obligations.RxbitStopsOutOfReach : Prop :=
  ∀ (b : Bool) (s : State) (f : Fault),
    let n := s.rx.bitcnt.toNat + 1
    let g : Codeword := ((s.rx.sh <<< 1 ||| (BitVec.ofBool b).setWidth 8) &&& 0x7F).extractLsb' 0 7
    let e : Byte := s.rx.sh <<< 1 ||| (BitVec.ofBool b).setWidth 8
    let emits := s.rx.st = .endCheck ∧ n = 8 ∧ hd e s.cfg.endMarker ≤ s.cfg.endTol
    (exec (.rxbit b) s = .fault f ↔
      (f = .cfgIllFormed ∧ (s.rx.st = .header ∨ s.rx.st = .payload) ∧ n % 7 = 0 ∧ dec s.cfg g = none) ∨
      (f = .outsideStore ∧ s.rx.st = .header ∧ n % 14 = 0 ∧ 56 < n ∧ dec s.cfg g ≠ none) ∨
      (f = .outsideStore ∧ s.rx.st = .payload ∧ n % 14 = 0 ∧ 3570 < n ∧ dec s.cfg g ≠ none) ∨
      (f = .unwrittenByte ∧ emits ∧ ∃ i, i < s.rx.hdr.plen.toNat ∧ s.rx.rxbuf.get? i = none) ∨
      (f = .outsideStore ∧ emits ∧ (∀ i, i < s.rx.hdr.plen.toNat → s.rx.rxbuf.get? i ≠ none) ∧ 518 < s.rx.corr.toNat)) ∧
    (Inv s → exec (.rxbit b) s ≠ .fault f)

/-- R22: what writes `st`, and the transitions there are (spec/90_conflicts.md C3). -/
def Obligations.StateTagTransitions : Prop :=
  ∀ (i : Instr) (s t : State), exec i s = .next t → t.rx.st ≠ s.rx.st →
    (i = .rxrst ∧ t.rx.st = .searching) ∨
    ((∃ b, i = .rxbit b) ∧
      ((s.rx.st = .searching ∧ t.rx.st = .header) ∨ (s.rx.st = .header ∧ t.rx.st = .payload) ∨
        (s.rx.st = .header ∧ t.rx.st = .searching) ∨ (s.rx.st = .payload ∧ t.rx.st = .endCheck) ∨
        (s.rx.st = .endCheck ∧ t.rx.st = .searching)))

/-- An event occurs only in the step of header bit 55 or of end-marker bit 7, and no step produces two: the spec's own inference from
R147 to R158 (R162). -/
def Obligations.EventsOnlyAtPacketEnds : Prop :=
  ∀ (i : Instr) (s t : State), exec i s = .next t →
    (t.stat.nHeaderCorrupt ≠ s.stat.nHeaderCorrupt →
      (∃ b, i = .rxbit b) ∧ s.rx.st = .header ∧ s.rx.bitcnt.toNat = 55) ∧
    (t.stat.nEmitted ≠ s.stat.nEmitted ∨ t.stat.nEndMismatch ≠ s.stat.nEndMismatch →
      (∃ b, i = .rxbit b) ∧ s.rx.st = .endCheck ∧ s.rx.bitcnt.toNat = 7) ∧
    (eventTotal t.stat = eventTotal s.stat ∨ eventTotal t.stat = eventTotal s.stat + 1)

/-- Outside `SEARCHING` the receiver is back in `SEARCHING` after at most 3634 bits, whatever they are: the spec's own inference
(R161, R202). -/
def Obligations.BlindSpanEnds : Prop :=
  ∀ (s : State) (bs : Bits), Inv s → s.rx.st ≠ .searching → bs.length = 3634 →
    ∃ k t, k ≤ 3634 ∧ execAll (rxBits (bs.take k)) s = .next t ∧ t.rx.st = .searching

/-- The bits of `build(msg, q)`, fed to a cleared receiver, produce no event before the last bit and the packet at it: the spec's own
inference from R124, R148 to R158 and R108 (R164). -/
def Obligations.BuiltPacketIsReceived : Prop :=
  ∀ (s : State) (msg : List Byte) (q : Byte), s.cfg.wf = true → rxClear s.rx = s.rx →
    1 ≤ msg.length → msg.length ≤ 255 →
    ∃ (bits : Bits) (t : State), build s.cfg msg q = .ok bits ∧ bits.length = 88 + 14 * msg.length ∧
      (∀ k, k < bits.length → ∃ u, execAll (rxBits (bits.take k)) s = .next u ∧ u.stat = s.stat ∧
        (0 < k → u.resp = some .ok)) ∧
      execAll (rxBits bits) s = .next t ∧ t.resp = some (.packet ⟨q, msg, 0, false⟩) ∧ rxClear t.rx = t.rx ∧
      t.stat.nEmitted = s.stat.nEmitted + 1 ∧ t.tx = s.tx

/-- The spec's own inference (R165): with at most `SYNC_TOL` wrong bits in the synchronisation pattern, at most one in each group and at most one in the end
marker, the packet is still emitted, and its count is the number of groups with a wrong bit. -/
def Obligations.DamagedPacketIsReceived : Prop :=
  ∀ (s : State) (msg : List Byte) (q : Byte) (sent rcvd : Bits), s.cfg.wf = true → rxClear s.rx = s.rx →
    1 ≤ msg.length → msg.length ≤ 255 → build s.cfg msg q = .ok sent → rcvd.length = sent.length →
    bitsApart (slice rcvd 0 24) (slice sent 0 24) ≤ s.cfg.syncTol →
    (∀ k, k < 8 + 2 * msg.length → bitsApart (slice rcvd (24 + 7 * k) 7) (slice sent (24 + 7 * k) 7) ≤ 1) →
    bitsApart (slice rcvd (80 + 14 * msg.length) 8) (slice sent (80 + 14 * msg.length) 8) ≤ 1 →
    ∃ t, execAll (rxBits rcvd) s = .next t ∧
      t.resp = some (.packet ⟨q, msg, (List.range (8 + 2 * msg.length)).countP
        (fun k => slice rcvd (24 + 7 * k) 7 != slice sent (24 + 7 * k) 7), false⟩) ∧
      t.stat.nEmitted = s.stat.nEmitted + 1

/-- The spec's own inference (R160, R223): after `RXRST`, whatever the receiver was doing, the next packet is received; what was in progress is counted nowhere. -/
def Obligations.PacketAfterRxrstIsReceived : Prop :=
  ∀ (s : State) (msg : List Byte) (q : Byte) (bits : Bits), s.cfg.wf = true → build s.cfg msg q = .ok bits →
    ∃ u t, exec .rxrst s = .next u ∧ u.stat = s.stat ∧
      execAll ([Instr.rxrst] ++ rxBits bits) s = .next t ∧ t.resp = some (.packet ⟨q, msg, 0, false⟩) ∧
      rxClear t.rx = t.rx ∧ eventTotal t.stat = eventTotal s.stat + 1

/-- The spec's own inference (R166): noise without a window within `SYNC_TOL` of the pattern, its windows that reach into the packet among them, leaves the
receiver searching, and the packet after it is received. The premise is the rule's own. -/
def Obligations.NoiseThenPacketIsReceived : Prop :=
  ∀ (s : State) (noise bits : Bits) (msg : List Byte) (q : Byte), s.cfg.wf = true → rxClear s.rx = s.rx →
    build s.cfg msg q = .ok bits →
    (∀ p, p < noise.length →
      s.cfg.syncTol < bitsApart (slice (noise ++ bits) p 24) (msbBits s.cfg.preamble ++ msbBits s.cfg.startMarker)) →
    ∃ u t, execAll (rxBits noise) s = .next u ∧ u.rx.st = .searching ∧ u.stat = s.stat ∧
      execAll (rxBits (noise ++ bits)) s = .next t ∧ t.resp = some (.packet ⟨q, msg, 0, false⟩) ∧ rxClear t.rx = t.rx ∧
      t.stat.nEmitted = s.stat.nEmitted + 1 ∧ eventTotal t.stat = eventTotal s.stat + 1

/-- The spec's own inference (R166): under `cfg0` the pattern stands apart from itself shifted by 1 to 20 bits, so no window that begins 1 to 20 bits before an
undamaged pattern matches, whatever bits stand before it. -/
def Obligations.SyncPatternStandsApart : Prop :=
  (List.range 20).map (fun j => hd (sync24 cfg0 >>> (j + 1)) (sync24 cfg0 &&& BitVec.ofNat 24 (2 ^ (23 - j) - 1))) =
    [8, 10, 9, 9, 7, 8, 10, 9, 7, 7, 6, 5, 6, 7, 5, 5, 4, 4, 5, 3] ∧
  ∀ (k : Nat) (w : BitVec 24), 1 ≤ k → k ≤ 20 → w &&& BitVec.ofNat 24 (2 ^ (24 - k) - 1) = sync24 cfg0 >>> k →
    syncMatch cfg0 w 24 = false

/-- The spec's own inference (R31, R232): what `RXBUF` holds beyond the bytes the packet under way has written never shows: whatever those bytes are, every command
gives the same next state but for them. -/
def Obligations.StaleRxbufNeverShows : Prop :=
  ∀ (i : Instr) (s t : State) (m : Memory),
    (∀ a, a < bytesDone s.rx → m.get? a = s.rx.rxbuf.get? a) → exec i s = .next t →
    ∃ m' : Memory, exec i { s with rx := { s.rx with rxbuf := m } } = .next { t with rx := { t.rx with rxbuf := m' } } ∧
      ∀ a, a < bytesDone t.rx → m'.get? a = t.rx.rxbuf.get? a

/-! ### Stores (spec/20_memory.md) -/

/-- R50, R58: a byte store keeps its canonical form, reads back what was written and leaves every other byte alone; an index beyond
254 stops (log 7). -/
def Obligations.StoredByteReadsBack : Prop :=
  ∀ (m : Memory) (i : Nat) (v : Byte),
    (i < 255 → ∃ m', m.store i v = .ok m' ∧ m'.get? i = some v ∧ (∀ a, a ≠ i → m'.get? a = m.get? a) ∧
      (m.wf = true → m'.wf = true)) ∧
    (255 ≤ i → m.store i v = .error .outsideStore)

/-- The transmit commands neither read nor write `RXF` and `STAT`; the receive and statistics commands neither read nor write
staging: the spec's own inference from the commands' state lists (R127). -/
def Obligations.TransmitAndReceiveIndependent : Prop :=
  ∀ (i : Instr) (s t : State), exec i s = .next t →
    (i = .txclr ∨ (∃ v, i = .txput v) ∨ (∃ q, i = .txbuild q) →
      t.rx = s.rx ∧ t.stat = s.stat ∧
      ∀ (r : Rxf) (u : Stat), exec i { s with rx := r, stat := u } = .next { t with rx := r, stat := u }) ∧
    (i = .nop ∨ (∃ b, i = .rxbit b) ∨ i = .rxrst ∨ i = .snap →
      t.tx = s.tx ∧ ∀ x : Txf, exec i { s with tx := x } = .next { t with tx := x })

/-! ### Statistics (spec/43_statistics.md) -/

/-- R184: `SNAP` responds with the counters as they stand and changes nothing; two `SNAP` with no `RXBIT` between them, whatever
other commands stand there, give equal copies. -/
def Obligations.SnapCopiesTheCounters : Prop :=
  ∀ s : State, exec .snap s = .next { s with resp := some (.snapshot s.stat) } ∧
    ∀ (is : List Instr) (t : State), (∀ b, Instr.rxbit b ∉ is) → execAll ([Instr.snap] ++ is ++ [Instr.snap]) s = .next t →
      t.resp = some (.snapshot s.stat) ∧ t.stat = s.stat

/-- R181: what `record` does to each counter for each kind of event. -/
def Obligations.RecordCountsOneEvent : Prop :=
  ∀ t : Stat,
    (∀ pkt : DecodedPacket, pkt.correctedBitCount ≤ 518 →
      ∃ h : Hist, record (.packetEmitted pkt) t = .ok { t with
          nEmitted := t.nEmitted + 1, totalCorrected := t.totalCorrected + pkt.correctedBitCount, hist := h } ∧
        (∀ c, h.count c = if c = pkt.correctedBitCount then t.hist.count c + 1 else t.hist.count c)) ∧
    record .headerCorrupt t = .ok { t with nHeaderCorrupt := t.nHeaderCorrupt + 1 } ∧
    record .endMarkerMismatch t = .ok { t with nEndMismatch := t.nEndMismatch + 1 }

/-- R182: only an `RXBIT` step that produces an event writes a counter, and it records that event once; an illegal word
writes none. -/
def Obligations.OnlyEventsMoveCounters : Prop :=
  (∀ (i : Instr) (s t : State), exec i s = .next t →
    (∀ ev, eventOf i s = some ev → record ev s.stat = .ok t.stat ∧ ∃ b, i = .rxbit b) ∧
    (eventOf i s = none → t.stat = s.stat)) ∧
  (∀ (s t : State) (w : Word) (rest : List Word), s.cmds = w :: rest → (∀ i, decode w ≠ .ok i) → step s = .next t →
    t.stat = s.stat)

/-- R183: no rule but `SNAP`'s reads a counter. -/
def Obligations.CountersNeverSteerTheDevice : Prop :=
  ∀ (i : Instr) (s t : State) (u : Stat), exec i s = .next t → i ≠ .snap →
    ∃ u', exec i { s with stat := u } = .next { t with stat := u' }

/-- The two sums over the histogram, counters that never decrease, and one count for each event: the spec's own inference from
R181 (R185). -/
def Obligations.CountersAddUp : Prop :=
  (∀ (c : Cfg) (s : State), c.wf = true → Reachable c s →
    s.stat.nEmitted = ((List.range 519).map (fun b => s.stat.hist.count b)).sum ∧
    s.stat.totalCorrected = ((List.range 519).map (fun b => b * s.stat.hist.count b)).sum) ∧
  (∀ s t : State, step s = .next t →
    s.stat.nEmitted ≤ t.stat.nEmitted ∧ s.stat.nHeaderCorrupt ≤ t.stat.nHeaderCorrupt ∧
    s.stat.nEndMismatch ≤ t.stat.nEndMismatch ∧ s.stat.totalCorrected ≤ t.stat.totalCorrected ∧
    ∀ b, s.stat.hist.count b ≤ t.stat.hist.count b) ∧
  (∀ (i : Instr) (s t : State), exec i s = .next t →
    eventTotal t.stat = eventTotal s.stat + if (eventOf i s).isSome then 1 else 0) ∧
  (∀ c, eventTotal (State.resetWith c).stat = 0)

/-! ### Assembler (spec/30_encoding.md Part C) -/

/-- R87: the expansion of each pseudo-instruction. -/
def Obligations.PseudoInstructionsExpand : Prop :=
  (∀ s : Bits, (AsmLine.rxbits s).expand = some (s.map Instr.rxbit)) ∧
  (∀ (n : Nat) (h : BitVec n), (AsmLine.rxhex n h.toNat).expand = (AsmLine.rxbits (msbBits h)).expand) ∧
  (∀ (q : Byte) (vs : List Byte),
    (AsmLine.txmsg q.toNat (vs.map BitVec.toNat)).expand =
      some ([Instr.txclr] ++ vs.map Instr.txput ++ [Instr.txbuild q]))

/-- R86: each command's operand is any number that fits its width, and a number that does not fit is an assembler error. -/
def Obligations.AssemblerOperandsMustFit : Prop :=
  ∀ v : Nat,
    (AsmLine.command "RXBIT" (some v)).expand = (if v < 2 then some [.rxbit (v == 1)] else none) ∧
    (AsmLine.command "ENC" (some v)).expand = (if v < 16 then some [.enc (BitVec.ofNat 4 v)] else none) ∧
    (AsmLine.command "DEC" (some v)).expand = (if v < 128 then some [.dec (BitVec.ofNat 7 v)] else none) ∧
    (AsmLine.command "TXPUT" (some v)).expand = (if v < 256 then some [.txput (BitVec.ofNat 8 v)] else none) ∧
    (AsmLine.command "TXBUILD" (some v)).expand = (if v < 256 then some [.txbuild (BitVec.ofNat 8 v)] else none) ∧
    (∀ m ∈ ["NOP", "RXRST", "TXCLR", "SNAP"], (AsmLine.command m (some v)).expand = none)
end

