-- ==== Sys2Proof/Laws/Codec.lean ====
section
/-! SUPPORT. The laws of parity and of the syndrome that the codec rests on (spec/40_hamming_codec.md R101 to R106), for every
configuration, and the totality of `dec` under a well-formed one. -/

namespace Sys2Proof.Machine

/-! ### Parity -/

/-- Parity of a nibble turns exclusive or of nibbles into exclusive or of bits. -/
theorem parity_xor : ∀ a b : BitVec 4, parity (a ^^^ b) = (parity a ^^ parity b) := by decide

theorem parity_zero : parity (0 : BitVec 4) = false := by decide

/-- The parity of one data bit under a mask is the mask's bit. -/
theorem parity_single : ∀ (j : Fin 4) (m : BitVec 4), parity (1#4 <<< j.val &&& m) = m.getLsbD j.val := by decide

theorem parityBit_xor (c : Cfg) (a b : Nibble) (i : Nat) :
    parityBit c (a ^^^ b) i = (parityBit c a i ^^ parityBit c b i) := by
  have : (a ^^^ b) &&& pmask c i = (a &&& pmask c i) ^^^ (b &&& pmask c i) := by
    ext j hj
    simp [Bool.and_xor_distrib_right]
  simp only [parityBit, this, parity_xor]

theorem parityBit_zero (c : Cfg) (i : Nat) : parityBit c 0 i = false := by
  have : (0 : BitVec 4) &&& pmask c i = 0 := by simp
  simp only [parityBit, this, parity_zero]

theorem parityBit_single (c : Cfg) (j : Fin 4) (i : Nat) :
    parityBit c (1#4 <<< j.val) i = (pmask c i).getLsbD j.val := parity_single j _

/-! ### The bits of a three-bit value made of three bits -/

/-- Three-bit values are equal when their bits are. -/
theorem ofBool3_inj (a b c a' b' c' : Bool) :
    BitVec.ofBool a ++ BitVec.ofBool b ++ BitVec.ofBool c = BitVec.ofBool a' ++ BitVec.ofBool b' ++ BitVec.ofBool c' ↔
      a = a' ∧ b = b' ∧ c = c' := by
  revert a b c a' b' c'; decide

theorem ofBool3_xor (a b c a' b' c' : Bool) :
    (BitVec.ofBool a ++ BitVec.ofBool b ++ BitVec.ofBool c) ^^^ (BitVec.ofBool a' ++ BitVec.ofBool b' ++ BitVec.ofBool c') =
      BitVec.ofBool (a ^^ a') ++ BitVec.ofBool (b ^^ b') ++ BitVec.ofBool (c ^^ c') := by
  revert a b c a' b' c'; decide

theorem ofBool3_zero : (0 : BitVec 3) = BitVec.ofBool false ++ BitVec.ofBool false ++ BitVec.ofBool false := by decide

/-! ### The syndrome (R104) -/

theorem dataBits_xor (v w : Codeword) : dataBits (v ^^^ w) = dataBits v ^^^ dataBits w := by
  ext j hj
  simp [dataBits]

theorem synBit_xor (c : Cfg) (v w : Codeword) (i : Nat) : synBit c (v ^^^ w) i = (synBit c v i ^^ synBit c w i) := by
  simp only [synBit, dataBits_xor, parityBit_xor, BitVec.getLsbD_xor]
  cases parityBit c (dataBits v) i <;> cases parityBit c (dataBits w) i <;> cases v.getLsbD i <;> cases w.getLsbD i <;> rfl

/-- The syndrome is linear. -/
theorem syn_xor (c : Cfg) (v w : Codeword) : syn c (v ^^^ w) = syn c v ^^^ syn c w := by
  simp only [syn, ofBool3_xor, synBit_xor]

/-- A nibble is the data part of its codeword. -/
theorem dataBits_enc (c : Cfg) (d : Nibble) : dataBits (enc c d) = d := by
  simp only [enc]
  generalize parityBit c d 2 = x
  generalize parityBit c d 1 = y
  generalize parityBit c d 0 = z
  revert d x y z; decide

theorem enc_low_bits : ∀ (d : Nibble) (x y z : Bool),
    (d ++ BitVec.ofBool x ++ BitVec.ofBool y ++ BitVec.ofBool z).getLsbD 0 = z ∧
    (d ++ BitVec.ofBool x ++ BitVec.ofBool y ++ BitVec.ofBool z).getLsbD 1 = y ∧
    (d ++ BitVec.ofBool x ++ BitVec.ofBool y ++ BitVec.ofBool z).getLsbD 2 = x := by decide

/-- A codeword has syndrome zero. -/
theorem syn_enc (c : Cfg) (d : Nibble) : syn c (enc c d) = 0 := by
  obtain ⟨h0, h1, h2⟩ := enc_low_bits d (parityBit c d 2) (parityBit c d 1) (parityBit c d 0)
  simp only [enc] at *
  have hd := dataBits_enc c d
  simp only [enc] at hd
  rw [ofBool3_zero, syn, ofBool3_inj]
  simp only [synBit, hd, h0, h1, h2, Bool.xor_self, and_self]

theorem codeword_parts : ∀ w : Codeword,
    dataBits w ++ BitVec.ofBool (w.getLsbD 2) ++ BitVec.ofBool (w.getLsbD 1) ++ BitVec.ofBool (w.getLsbD 0) = w := by decide

/-- A value of syndrome zero is the codeword of its data part. -/
theorem enc_dataBits_of_syn (c : Cfg) (w : Codeword) (h : syn c w = 0) : enc c (dataBits w) = w := by
  rw [ofBool3_zero, syn, ofBool3_inj] at h
  obtain ⟨h2, h1, h0⟩ := h
  simp only [synBit, bne_eq_false_iff_eq] at h2 h1 h0
  simp only [enc, h2, h1, h0]
  exact codeword_parts w

/-! ### The columns (R12 (a), R105) -/

/-- A flipped parity bit: its column is its own place in the syndrome. -/
theorem syn_parityFlip (c : Cfg) :
    syn c (oneBit 0) = 0b001 ∧ syn c (oneBit 1) = 0b010 ∧ syn c (oneBit 2) = 0b100 := by
  have h0 : dataBits (oneBit 0) = 0 := by decide
  have h1 : dataBits (oneBit 1) = 0 := by decide
  have h2 : dataBits (oneBit 2) = 0 := by decide
  simp only [syn, synBit, h0, h1, h2, parityBit_zero]
  decide

/-- A flipped data bit: its column is made of the masks' bits. -/
theorem syn_dataFlip (c : Cfg) (j : Fin 4) : syn c (oneBit (3 + j.val)) = c.dataColumn j.val := by
  have hd : dataBits (oneBit (3 + j.val)) = 1#4 <<< j.val := by revert j; decide
  have h0 : (oneBit (3 + j.val)).getLsbD 0 = false := by revert j; decide
  have h1 : (oneBit (3 + j.val)).getLsbD 1 = false := by revert j; decide
  have h2 : (oneBit (3 + j.val)).getLsbD 2 = false := by revert j; decide
  simp only [syn, synBit, hd, h0, h1, h2, parityBit_single, Bool.xor_false, Cfg.dataColumn, pmask]

/-- R105: the seven syndromes of a single flipped bit, in the order of the bits, are the columns of R12 (a). -/
theorem map_syn_oneBit (c : Cfg) : (List.range 7).map (fun i => syn c (oneBit i)) = c.columns := by
  obtain ⟨h0, h1, h2⟩ := syn_parityFlip c
  have h3 := syn_dataFlip c 0
  have h4 := syn_dataFlip c 1
  have h5 := syn_dataFlip c 2
  have h6 := syn_dataFlip c 3
  show [syn c (oneBit 0), syn c (oneBit 1), syn c (oneBit 2), syn c (oneBit 3), syn c (oneBit 4), syn c (oneBit 5),
    syn c (oneBit 6)] = _
  rw [h0, h1, h2]
  simpa [Cfg.columns] using ⟨h3, h4, h5, h6⟩

theorem columns_of_wf {c : Cfg} (h : c.wf = true) : c.columns.Nodup ∧ 0 ∉ c.columns := by
  simp only [Cfg.wf, Cfg.columnsWf, Bool.and_eq_true, decide_eq_true_eq] at h
  exact h.1.1

theorem tolerances_of_wf {c : Cfg} (h : c.wf = true) : c.syncTol < 12 ∧ c.endTol = 1 := by
  simp only [Cfg.wf, Cfg.tolerancesWf, Bool.and_eq_true, decide_eq_true_eq, beq_iff_eq] at h
  exact h.2

/-- R12, R105: seven distinct non-zero columns are all the non-zero syndromes. -/
theorem mem_columns_of_wf {c : Cfg} (h : c.wf = true) {s : Syndrome} (hs : s ≠ 0) : s ∈ c.columns := by
  obtain ⟨hn, h0⟩ := columns_of_wf h
  have hsub : c.columns.toFinset ⊆ Finset.univ.erase (0 : BitVec 3) := fun x hx => by
    refine Finset.mem_erase.mpr ⟨fun e => h0 (e ▸ List.mem_toFinset.mp hx), Finset.mem_univ x⟩
  have hcard : (Finset.univ.erase (0 : BitVec 3)).card ≤ c.columns.toFinset.card := by
    rw [List.toFinset_card_of_nodup hn]
    exact Nat.le_of_eq (show (Finset.univ.erase (0 : BitVec 3)).card = 7 by decide)
  have := Finset.eq_of_subset_of_card_le hsub hcard
  exact List.mem_toFinset.mp (this ▸ Finset.mem_erase.mpr ⟨hs, Finset.mem_univ s⟩)

/-- Everything `pos` can answer: the index of a column that equals the syndrome. -/
theorem pos_eq_some {c : Cfg} {s : Syndrome} {i : Nat} (h : pos c s = some i) : i < 7 ∧ syn c (oneBit i) = s := by
  have h1 := List.mem_of_find?_eq_some h
  have h2 := List.find?_some h
  exact ⟨List.mem_range.mp h1, by simpa using h2⟩

/-- R105: under a well-formed `cfg` every non-zero syndrome has its bit. -/
theorem pos_of_ne_zero {c : Cfg} (h : c.wf = true) {s : Syndrome} (hs : s ≠ 0) : ∃ i, pos c s = some i := by
  have hm := mem_columns_of_wf h hs
  rw [← map_syn_oneBit c, List.mem_map] at hm
  obtain ⟨i, hi, rfl⟩ := hm
  cases hp : pos c (syn c (oneBit i)) with
  | some j => exact ⟨j, rfl⟩
  | none => exact absurd (List.find?_eq_none.mp hp i hi) (by simp)

/-- The columns of two different bits differ. -/
theorem syn_oneBit_inj {c : Cfg} (h : c.wf = true) {i j : Nat} (hi : i < 7) (hj : j < 7)
    (he : syn c (oneBit i) = syn c (oneBit j)) : i = j := by
  have hn := (columns_of_wf h).1
  rw [← map_syn_oneBit c] at hn
  exact List.inj_on_of_nodup_map hn (List.mem_range.mpr hi) (List.mem_range.mpr hj) he

/-- No column is zero. -/
theorem syn_oneBit_ne_zero {c : Cfg} (h : c.wf = true) {i : Nat} (hi : i < 7) : syn c (oneBit i) ≠ 0 := by
  have h0 := (columns_of_wf h).2
  rw [← map_syn_oneBit c, List.mem_map] at h0
  exact fun e => h0 ⟨i, List.mem_range.mpr hi, e⟩

/-! ### `dec` (R106) -/

/-- Everything `dec` can answer: no error, or one bit flipped whose column is the syndrome. -/
theorem dec_cases {c : Cfg} {w : Codeword} {r : DecResult} (h : dec c w = some r) :
    (syn c w = 0 ∧ r = ⟨dataBits w, false, .zero⟩) ∨
    (syn c w ≠ 0 ∧ ∃ i, i < 7 ∧ syn c (oneBit i) = syn c w ∧ r = ⟨dataBits (w ^^^ oneBit i), true, .one⟩) := by
  unfold dec at h
  split at h
  · next h0 => exact .inl ⟨h0, by simpa using h.symm⟩
  · next h0 =>
    split at h
    · next i hp => exact .inr ⟨h0, i, (pos_eq_some hp).1, (pos_eq_some hp).2, by simpa using h.symm⟩
    · simp at h

/-- R106: `dec` is total under a well-formed `cfg`. -/
theorem dec_total {c : Cfg} (h : c.wf = true) (w : Codeword) : ∃ r, dec c w = some r := by
  unfold dec
  split
  · exact ⟨_, rfl⟩
  · next h0 =>
    obtain ⟨i, hi⟩ := pos_of_ne_zero h h0
    exact ⟨⟨dataBits (w ^^^ oneBit i), true, .one⟩, by simp only [hi]⟩

/-- The decode of a codeword with one bit flipped flips that bit back. -/
theorem dec_of_column {c : Cfg} (h : c.wf = true) {w : Codeword} {i : Nat} (hi : i < 7) (hs : syn c w = syn c (oneBit i)) :
    dec c w = some ⟨dataBits (w ^^^ oneBit i), true, .one⟩ := by
  obtain ⟨r, hr⟩ := dec_total h w
  have hne : syn c w ≠ 0 := hs ▸ syn_oneBit_ne_zero h hi
  obtain ⟨h0, _⟩ | ⟨_, j, hj, hc, rfl⟩ := dec_cases hr
  · exact absurd h0 hne
  · rw [hr, syn_oneBit_inj h hj hi (hc.trans hs)]

/-- R110, for one result: the error count is never `uncertain`, so `unc` is left as it is. -/
theorem mergeUnc_of_dec {c : Cfg} {w : Codeword} {r : DecResult} (h : dec c w = some r) (u : Bool) : mergeUnc u r = u := by
  obtain ⟨_, rfl⟩ | ⟨_, _, _, _, rfl⟩ := dec_cases h <;> simp [mergeUnc]

end Sys2Proof.Machine
end

