-- ==== Sys2Proof/Laws/State.lean ====
section
/-! SUPPORT. The small lemmas of the state: each field after each update the operations make, and what it means that a step
ends. -/

namespace Sys2Proof.Machine

/-! ### `rx_clear`, field by field (R146) -/

@[simp] theorem rxClear_st (r : Rxf) : (rxClear r).st = .searching := rfl
@[simp] theorem rxClear_win (r : Rxf) : (rxClear r).win = 0 := rfl
@[simp] theorem rxClear_wfill (r : Rxf) : (rxClear r).wfill = 0 := rfl
@[simp] theorem rxClear_sh (r : Rxf) : (rxClear r).sh = 0 := rfl
@[simp] theorem rxClear_bitcnt (r : Rxf) : (rxClear r).bitcnt = 0 := rfl
@[simp] theorem rxClear_hi (r : Rxf) : (rxClear r).hi = 0 := rfl
@[simp] theorem rxClear_hdr (r : Rxf) : (rxClear r).hdr = .zero := rfl
@[simp] theorem rxClear_corr (r : Rxf) : (rxClear r).corr = 0 := rfl
@[simp] theorem rxClear_unc (r : Rxf) : (rxClear r).unc = false := rfl
@[simp] theorem rxClear_rxbuf (r : Rxf) : (rxClear r).rxbuf = r.rxbuf := rfl

/-- R37: what `rx_clear` leaves is the hard-reset value of every register but `RXBUF`. -/
theorem rxClear_eq_reset (r : Rxf) : rxClear r = { Rxf.reset with rxbuf := r.rxbuf } := rfl

@[simp] theorem rxClear_rxClear (r : Rxf) : rxClear (rxClear r) = rxClear r := rfl

/-! ### The group register (R151) -/

@[simp] theorem shiftGroup_st (r : Rxf) (b : Bool) : (shiftGroup r b).st = r.st := rfl
@[simp] theorem shiftGroup_win (r : Rxf) (b : Bool) : (shiftGroup r b).win = r.win := rfl
@[simp] theorem shiftGroup_wfill (r : Rxf) (b : Bool) : (shiftGroup r b).wfill = r.wfill := rfl
@[simp] theorem shiftGroup_sh (r : Rxf) (b : Bool) : (shiftGroup r b).sh = shiftIn r.sh b &&& 0x7F := rfl
@[simp] theorem shiftGroup_bitcnt (r : Rxf) (b : Bool) : (shiftGroup r b).bitcnt = r.bitcnt + 1 := rfl
@[simp] theorem shiftGroup_hi (r : Rxf) (b : Bool) : (shiftGroup r b).hi = r.hi := rfl
@[simp] theorem shiftGroup_hdr (r : Rxf) (b : Bool) : (shiftGroup r b).hdr = r.hdr := rfl
@[simp] theorem shiftGroup_corr (r : Rxf) (b : Bool) : (shiftGroup r b).corr = r.corr := rfl
@[simp] theorem shiftGroup_unc (r : Rxf) (b : Bool) : (shiftGroup r b).unc = r.unc := rfl
@[simp] theorem shiftGroup_rxbuf (r : Rxf) (b : Bool) : (shiftGroup r b).rxbuf = r.rxbuf := rfl

/-! ### Staging (R126) -/

@[simp] theorem clearStaging_cfg (s : State) : (clearStaging s).cfg = s.cfg := rfl
@[simp] theorem clearStaging_rx (s : State) : (clearStaging s).rx = s.rx := rfl
@[simp] theorem clearStaging_txlen (s : State) : (clearStaging s).tx.txlen = 0 := rfl
@[simp] theorem clearStaging_txbuf (s : State) : (clearStaging s).tx.txbuf = s.tx.txbuf := rfl
@[simp] theorem clearStaging_stat (s : State) : (clearStaging s).stat = s.stat := rfl
@[simp] theorem clearStaging_cmds (s : State) : (clearStaging s).cmds = s.cmds := rfl
@[simp] theorem clearStaging_resp (s : State) : (clearStaging s).resp = s.resp := rfl

/-! ### Reset (R220) -/

@[simp] theorem resetWith_cfg (c : Cfg) : (State.resetWith c).cfg = c := rfl
@[simp] theorem resetWith_rx (c : Cfg) : (State.resetWith c).rx = .reset := rfl
@[simp] theorem resetWith_tx (c : Cfg) : (State.resetWith c).tx = .reset := rfl
@[simp] theorem resetWith_stat (c : Cfg) : (State.resetWith c).stat = .reset := rfl
@[simp] theorem resetWith_cmds (c : Cfg) : (State.resetWith c).cmds = [] := rfl
@[simp] theorem resetWith_resp (c : Cfg) : (State.resetWith c).resp = none := rfl
@[simp] theorem hardReset_cfg (s : State) : (hardReset s).cfg = s.cfg := rfl
@[simp] theorem hardReset_rx (s : State) : (hardReset s).rx = .reset := rfl
@[simp] theorem hardReset_tx (s : State) : (hardReset s).tx = .reset := rfl
@[simp] theorem hardReset_stat (s : State) : (hardReset s).stat = .reset := rfl
@[simp] theorem hardReset_cmds (s : State) : (hardReset s).cmds = s.cmds := rfl
@[simp] theorem hardReset_resp (s : State) : (hardReset s).resp = none := rfl

/-! ### Ending a step (R16) -/

/-- A response ends the step in a next state, never in a stop. -/
@[simp] theorem respond_next (v : Response) (s t : State) :
    respond v s = .next t ↔ t = { s with resp := some v } := by
  simp only [respond, Host.Outcome.next.injEq, eq_comm]

@[simp] theorem raise_next (e : CommandError) (s t : State) :
    raise e s = .next t ↔ t = { s with resp := some (.error e) } := respond_next _ s t

@[simp] theorem respond_ne_fault (v : Response) (s : State) (f : Fault) : respond v s ≠ .fault f := nofun

@[simp] theorem raise_ne_fault (e : CommandError) (s : State) (f : Fault) : raise e s ≠ .fault f := nofun

/-! ### Runs (R61) -/

@[simp] theorem execAll_nil (s : State) : execAll [] s = .next s := rfl

/-- A run of `i` and then `is` is a step of `i` that ends in a state from which `is` run. -/
theorem execAll_cons_next (i : Instr) (is : List Instr) (s t : State) :
    execAll (i :: is) s = .next t ↔ ∃ u, exec i s = .next u ∧ execAll is u = .next t := by
  simp only [execAll]
  cases exec i s <;> simp

/-- R142: two command sequences after one another are one command sequence. -/
theorem execAll_append (is js : List Instr) (s t : State) :
    execAll (is ++ js) s = .next t ↔ ∃ u, execAll is s = .next u ∧ execAll js u = .next t := by
  induction is generalizing s with
  | nil => simp
  | cons i is ih =>
    simp only [List.cons_append, execAll_cons_next, ih]
    exact ⟨fun ⟨u, h, v, hv, ht⟩ => ⟨v, ⟨u, h, hv⟩, ht⟩, fun ⟨v, ⟨u, h, hv⟩, ht⟩ => ⟨u, h, v, hv, ht⟩⟩

end Sys2Proof.Machine
end

