-- ==== Sys2Proof/Laws/Store.lean ====
section
/-! SUPPORT. The laws of the three stores (spec/20_memory.md R50, R58): read after write, a write leaves every other index alone,
and every write keeps the canonical form. -/

namespace Sys2Proof.Machine

/-! ### Sparse data -/

@[simp] theorem Cells.get?_nil {α : Type} (a : Nat) : Cells.get? ([] : Cells α) a = none := rfl

/-- Reading after a write: the written value at its index, every other index as before. -/
theorem Cells.get?_set {α : Type} (m : Cells α) (a b : Nat) (x : α) :
    Cells.get? (Cells.set m a x) b = if b = a then some x else Cells.get? m b := by
  induction m with
  | nil => simp [Cells.set, Cells.get?]
  | cons p m ih =>
    obtain ⟨k, v⟩ := p
    simp only [Cells.set]
    split
    · simp only [Cells.get?]
    · split
      · subst a
        simp only [Cells.get?]
        split <;> rfl
      · simp only [Cells.get?, ih]
        by_cases hk : b = k
        · rw [if_pos hk, if_neg (by omega), if_pos hk]
        · rw [if_neg hk, if_neg hk]

/-- A sorted list stays sorted when its lower bound is lowered. -/
theorem Cells.sortedWithin_mono {α : Type} {lo lo' hi : Nat} (m : Cells α) (h : lo' ≤ lo)
    (hm : Cells.sortedWithin lo hi m = true) : Cells.sortedWithin lo' hi m = true := by
  cases m with
  | nil => rfl
  | cons p m =>
    simp only [Cells.sortedWithin, Bool.and_eq_true, decide_eq_true_eq] at hm ⊢
    exact ⟨⟨by omega, hm.1.2⟩, hm.2⟩

/-- A write inside the bounds keeps the canonical form. -/
theorem Cells.sortedWithin_set {α : Type} (m : Cells α) {lo hi a : Nat} (x : α) (h : lo ≤ a) (h' : a < hi)
    (hm : Cells.sortedWithin lo hi m = true) : Cells.sortedWithin lo hi (Cells.set m a x) = true := by
  induction m generalizing lo with
  | nil => simp [Cells.set, Cells.sortedWithin, h, h']
  | cons p m ih =>
    obtain ⟨k, v⟩ := p
    simp only [Cells.sortedWithin, Bool.and_eq_true, decide_eq_true_eq] at hm
    simp only [Cells.set]
    split
    · simp only [Cells.sortedWithin, Bool.and_eq_true, decide_eq_true_eq]
      exact ⟨⟨h, h'⟩, ⟨by omega, hm.1.2⟩, hm.2⟩
    · split
      · subst a
        simp only [Cells.sortedWithin, Bool.and_eq_true, decide_eq_true_eq]
        exact ⟨⟨h, h'⟩, hm.2⟩
      · simp only [Cells.sortedWithin, Bool.and_eq_true, decide_eq_true_eq]
        exact ⟨hm.1, ih (by omega) hm.2⟩

/-- An index below the lower bound is not listed. -/
theorem Cells.get?_eq_none_of_lt {α : Type} (m : Cells α) {lo hi a : Nat} (h : a < lo)
    (hm : Cells.sortedWithin lo hi m = true) : Cells.get? m a = none := by
  induction m generalizing lo with
  | nil => rfl
  | cons p m ih =>
    simp only [Cells.sortedWithin, Bool.and_eq_true, decide_eq_true_eq] at hm
    simp only [Cells.get?]
    rw [if_neg (by omega)]
    exact ih (by omega) hm.2

/-! ### The byte stores -/

@[simp] theorem Memory.get?_nil (a : Nat) : Memory.get? [] a = none := rfl

/-- Everything a store of one byte can do. -/
theorem Memory.store_ok_iff (m m' : Memory) (i : Nat) (v : Byte) :
    m.store i v = .ok m' ↔ i < bufBytes ∧ m' = Cells.set m i v := by
  unfold Memory.store
  split
  · next h => simp [h, eq_comm]
  · next h => simp [h]

theorem Memory.store_of_lt (m : Memory) {i : Nat} (v : Byte) (h : i < bufBytes) : m.store i v = .ok (Cells.set m i v) :=
  (m.store_ok_iff _ i v).mpr ⟨h, rfl⟩

theorem Memory.store_of_ge (m : Memory) {i : Nat} (v : Byte) (h : bufBytes ≤ i) : m.store i v = .error .outsideStore :=
  if_neg (by omega)

theorem Memory.get?_set (m : Memory) (a b : Nat) (v : Byte) :
    Memory.get? (Cells.set m a v) b = if b = a then some v else m.get? b := Cells.get?_set m a b v

/-- A store keeps the canonical form. -/
theorem Memory.store_keeps_wf {m m' : Memory} {i : Nat} {v : Byte} (h : m.store i v = .ok m') (hm : m.wf = true) :
    m'.wf = true := by
  obtain ⟨hi, rfl⟩ := (m.store_ok_iff m' i v).mp h
  exact Cells.sortedWithin_set m v (Nat.zero_le i) hi hm

/-- Reset memory has the canonical form. -/
theorem Memory.wf_nil : Memory.wf [] = true := rfl

/-- `n` bytes are read exactly when every one of them is listed, and then in order. -/
theorem Memory.getRange?_eq_some_iff (m : Memory) (n i : Nat) (vs : List Byte) :
    m.getRange? i n = some vs ↔ vs.length = n ∧ ∀ j, j < n → m.get? (i + j) = vs[j]? := by
  induction n generalizing i vs with
  | zero =>
    simp only [Memory.getRange?, Option.some.injEq, Nat.not_lt_zero, false_implies, implies_true, and_true]
    exact ⟨fun h => h ▸ rfl, fun h => (List.length_eq_zero_iff.mp h).symm⟩
  | succ n ih =>
    simp only [Memory.getRange?]
    constructor
    · intro h
      split at h
      · next v ws hv hws =>
        obtain ⟨hl, hg⟩ := (ih _ _).mp hws
        obtain rfl : v :: ws = vs := by simpa using h
        refine ⟨by simp [hl], fun j hj => ?_⟩
        cases j with
        | zero => simpa using hv
        | succ j =>
          have := hg j (by omega)
          simpa [Nat.add_assoc, Nat.add_comm 1 j] using this
      · simp at h
    · rintro ⟨hl, hg⟩
      cases vs with
      | nil => simp at hl
      | cons v ws =>
        have h0 : m.get? i = some v := by simpa using hg 0 (by omega)
        have h1 : m.getRange? (i + 1) n = some ws :=
          (ih _ _).mpr ⟨by simpa using hl, fun j hj => by
            have := hg (j + 1) (by omega)
            simpa [Nat.add_assoc, Nat.add_comm 1 j] using this⟩
        simp [h0, h1]

/-- `n` bytes are not read exactly when one of them is not listed. -/
theorem Memory.getRange?_eq_none_iff (m : Memory) (n i : Nat) :
    m.getRange? i n = none ↔ ∃ j, j < n ∧ m.get? (i + j) = none := by
  induction n generalizing i with
  | zero => simp [Memory.getRange?]
  | succ n ih =>
    simp only [Memory.getRange?]
    constructor
    · intro h
      cases h0 : m.get? i with
      | none => exact ⟨0, by omega, h0⟩
      | some v =>
        cases h1 : m.getRange? (i + 1) n with
        | none =>
          obtain ⟨j, hj, hn⟩ := (ih _).mp h1
          exact ⟨j + 1, by omega, by rw [← hn]; congr 1; omega⟩
        | some vs => simp [h0, h1] at h
    · rintro ⟨j, hj, hn⟩
      cases j with
      | zero =>
        have h0 : m.get? i = none := hn
        simp [h0]
      | succ j =>
        have h1 : m.getRange? (i + 1) n = none := (ih _).mpr ⟨j, by omega, by rw [← hn]; congr 1; omega⟩
        simp [h1]

/-- Everything a read of the first `n` bytes can do when it succeeds. -/
theorem Memory.load_ok_iff (m : Memory) (n : Nat) (vs : List Byte) :
    m.load n = .ok vs ↔ n ≤ bufBytes ∧ vs.length = n ∧ ∀ j, j < n → m.get? j = vs[j]? := by
  have key := m.getRange?_eq_some_iff n 0 vs
  simp only [Nat.zero_add] at key
  rw [← key, Memory.load]
  split
  · next h =>
    cases m.getRange? 0 n <;> simp [h]
  · next h => simp [h]

/-- A read of bytes that have all been written succeeds. -/
theorem Memory.load_of_written (m : Memory) {n : Nat} (h : n ≤ bufBytes) (hw : ∀ i, i < n → (m.get? i).isSome = true) :
    ∃ vs, m.load n = .ok vs := by
  cases hr : m.getRange? 0 n with
  | some vs => exact ⟨vs, by simp [Memory.load, h, hr]⟩
  | none =>
    obtain ⟨j, hj, hn⟩ := (m.getRange?_eq_none_iff n 0).mp hr
    have := hw j hj
    simp only [Nat.zero_add] at hn
    simp [hn] at this

/-- A read of a byte nothing has written stops. -/
theorem Memory.load_of_unwritten (m : Memory) {n i : Nat} (h : n ≤ bufBytes) (hi : i < n) (hn : m.get? i = none) :
    m.load n = .error .unwrittenByte := by
  have hr : m.getRange? 0 n = none := (m.getRange?_eq_none_iff n 0).mpr ⟨i, hi, by simpa using hn⟩
  simp [Memory.load, h, hr]

theorem Memory.load_of_gt (m : Memory) {n : Nat} (h : bufBytes < n) : m.load n = .error .outsideStore :=
  if_neg (by omega)

/-- When a read of the first `n` bytes stops. -/
theorem Memory.load_error_iff (m : Memory) (n : Nat) (f : Fault) :
    m.load n = .error f ↔
      (f = .outsideStore ∧ bufBytes < n) ∨ (f = .unwrittenByte ∧ n ≤ bufBytes ∧ ∃ i, i < n ∧ m.get? i = none) := by
  have key := m.getRange?_eq_none_iff n 0
  simp only [Nat.zero_add] at key
  rw [← key, Memory.load]
  split
  · next h =>
    cases m.getRange? 0 n <;> simp [h, Nat.not_lt.mpr h, eq_comm]
  · next h => simp [h, Nat.not_le.mp h, eq_comm]

/-- A read sees only the bytes it reads. -/
theorem Memory.load_congr {m m' : Memory} {n : Nat} (h : ∀ i, i < n → m.get? i = m'.get? i) : m.load n = m'.load n := by
  have key : ∀ n i, (∀ j, j < n → m.get? (i + j) = m'.get? (i + j)) → m.getRange? i n = m'.getRange? i n := by
    intro n
    induction n with
    | zero => intro i _; rfl
    | succ n ih =>
      intro i hj
      have h0 := hj 0 (by omega)
      have h1 := ih (i + 1) (fun j hjn => by
        have := hj (j + 1) (by omega)
        rwa [show i + (j + 1) = i + 1 + j by omega] at this)
      simp only [Nat.add_zero] at h0
      simp only [Memory.getRange?, h0, h1]
  simp only [Memory.load, key n 0 (by simpa using h)]

/-! ### The histogram -/

@[simp] theorem Hist.count_nil (c : Nat) : Hist.count [] c = 0 := rfl

/-- Everything an increment of a bin can do. -/
theorem Hist.bump_ok_iff (h h' : Hist) (c : Nat) :
    h.bump c = .ok h' ↔ c < histBins ∧ h' = Cells.set h c (h.count c + 1) := by
  unfold Hist.bump
  split
  · next hc => simp [hc, eq_comm]
  · next hc => simp [hc]

theorem Hist.bump_of_lt (h : Hist) {c : Nat} (hc : c < histBins) : h.bump c = .ok (Cells.set h c (h.count c + 1)) :=
  (h.bump_ok_iff _ c).mpr ⟨hc, rfl⟩

theorem Hist.bump_of_ge (h : Hist) {c : Nat} (hc : histBins ≤ c) : h.bump c = .error .outsideStore := if_neg (by omega)

/-- When an increment of a bin stops. -/
theorem Hist.bump_error_iff (h : Hist) (c : Nat) (f : Fault) : h.bump c = .error f ↔ f = .outsideStore ∧ histBins ≤ c := by
  unfold Hist.bump
  split
  · next hc => simp [Nat.not_le.mpr hc]
  · next hc => simp [Nat.not_lt.mp hc, eq_comm]

/-- R181: the incremented bin is one more, every other bin as before. -/
theorem Hist.count_bump {h h' : Hist} {c : Nat} (hb : h.bump c = .ok h') (d : Nat) :
    h'.count d = if d = c then h.count c + 1 else h.count d := by
  obtain ⟨_, rfl⟩ := (h.bump_ok_iff h' c).mp hb
  simp only [Hist.count, Cells.get?_set]
  split <;> rfl

theorem Hist.all_set (h : Hist) (c n : Nat) (hn : n ≠ 0) (hh : h.all (fun p => p.2 != 0) = true) :
    List.all (Cells.set h c n) (fun p => p.2 != 0) = true := by
  induction h with
  | nil => simp [Cells.set, hn]
  | cons p h ih =>
    obtain ⟨k, v⟩ := p
    simp only [List.all_cons, Bool.and_eq_true] at hh
    simp only [Cells.set]
    split
    · simpa [hn] using hh
    · split
      · simpa [hn] using hh.2
      · simpa using ⟨by simpa using hh.1, by simpa using ih hh.2⟩

/-- An increment keeps the canonical form. -/
theorem Hist.bump_keeps_wf {h h' : Hist} {c : Nat} (hb : h.bump c = .ok h') (hw : h.wf = true) : h'.wf = true := by
  obtain ⟨hc, rfl⟩ := (h.bump_ok_iff h' c).mp hb
  simp only [Hist.wf, Bool.and_eq_true] at hw ⊢
  exact ⟨Cells.sortedWithin_set h _ (Nat.zero_le c) hc hw.1, Hist.all_set h c _ (by omega) hw.2⟩

/-- Changing one term of a sum over the bins changes the sum by as much. -/
theorem sum_range_bump (f g : Nat → Nat) (c k n : Nat) (hc : c < n) (hg : ∀ d, d ≠ c → g d = f d) (hk : g c = f c + k) :
    ((List.range n).map g).sum = ((List.range n).map f).sum + k := by
  induction n with
  | zero => omega
  | succ n ih =>
    simp only [List.range_succ, List.map_append, List.map_cons, List.map_nil, List.sum_append, List.sum_cons, List.sum_nil]
    by_cases h : c = n
    · subst c
      have : (List.range n).map g = (List.range n).map f :=
        List.map_congr_left (fun d hd => hg d (by have := List.mem_range.mp hd; omega))
      rw [this, hk]
      omega
    · rw [ih (by omega), hg n (by omega)]
      omega

/-- R185: an increment adds 1 to the sum of the bins. -/
theorem histTotal_bump {h h' : Hist} {c : Nat} (hb : h.bump c = .ok h') : histTotal h' = histTotal h + 1 :=
  sum_range_bump h.count h'.count c 1 histBins ((h.bump_ok_iff h' c).mp hb).1
    (fun d hd => by rw [Hist.count_bump hb, if_neg hd]) (by rw [Hist.count_bump hb, if_pos rfl])

/-- R185: an increment of bin `c` adds `c` to the weighted sum. -/
theorem histWeighted_bump {h h' : Hist} {c : Nat} (hb : h.bump c = .ok h') : histWeighted h' = histWeighted h + c :=
  sum_range_bump (fun d => d * h.count d) (fun d => d * h'.count d) c c histBins ((h.bump_ok_iff h' c).mp hb).1
    (fun d hd => by simp only [Hist.count_bump hb, if_neg hd])
    (by simp only [Hist.count_bump hb, if_true, Nat.mul_add, Nat.mul_one])

/-! ### The header bytes (R28) -/

/-- `hdr[i]` after a write: the written byte at its index, every other byte as before. -/
theorem Header.get?_set? {h h' : Header} {i : Nat} {v : Byte} (hs : h.set? i v = some h') (j : Nat) :
    h'.get? j = if j = i then some v else h.get? j := by
  obtain _ | _ | _ | _ | i := i <;> simp [Header.set?] at hs <;> subst hs <;>
    obtain _ | _ | _ | _ | j := j <;> simp [Header.get?]

/-- There are four header bytes. -/
theorem Header.set?_isSome_iff (h : Header) (i : Nat) (v : Byte) : (h.set? i v).isSome = true ↔ i < 4 := by
  obtain _ | _ | _ | _ | i := i <;> simp [Header.set?]

end Sys2Proof.Machine
end

