-- ==== Sys2Proof/Laws/Rx.lean ====
section
/-! SUPPORT. What one bit can do to the receive framer (spec/42_rx_sync_framer.md R145 to R158): one inversion lemma for each
operation, and the totality of each under the ranges the invariant gives. -/

namespace Sys2Proof.Machine

/-! ### Counting -/

/-- R23: the count of bits does not wrap in its range. -/
theorem bitcnt_succ {n : BitVec 12} (h : n.toNat + 1 < 4096) : (n + 1).toNat = n.toNat + 1 := by
  simpa [BitVec.toNat_add] using h

/-- R29: the corrected-bit count goes up by 0 or 1, and does not wrap in its range. -/
theorem addCorrected_toNat {n : BitVec 10} {d : DecResult} (h : n.toNat + 1 < 1024) :
    (addCorrected n d).toNat = n.toNat + d.corrected.toNat := by
  cases hd : d.corrected <;> simp [addCorrected, hd, BitVec.toNat_add, Nat.mod_eq_of_lt h]

/-! ### Groups (R145, R152, R153, R155) -/

/-- R145 under a well-formed `cfg`: a group is decoded, `corr` takes its correction and `unc` stays. -/
theorem takeGroup_of_wf {c : Cfg} (h : c.wf = true) (r : Rxf) (g : Codeword) :
    ∃ d, dec c g = some d ∧ takeGroup c r g = .ok (d.nibble, { r with corr := addCorrected r.corr d }) := by
  obtain ⟨d, hd⟩ := dec_total h g
  exact ⟨d, hd, by simp only [takeGroup, hd, mergeUnc_of_dec hd]⟩

/-- Everything `take_group` can do. -/
theorem takeGroup_ok {c : Cfg} {r r' : Rxf} {g : Codeword} {nib : Nibble} (h : takeGroup c r g = .ok (nib, r')) :
    ∃ d, dec c g = some d ∧ nib = d.nibble ∧ r' = { r with corr := addCorrected r.corr d } := by
  unfold takeGroup at h
  split at h
  · next d hd =>
    simp only [Except.ok.injEq, Prod.mk.injEq, mergeUnc_of_dec hd] at h
    exact ⟨d, hd, h.1.symm, h.2.symm⟩
  · simp at h

/-- Everything the store of a completed byte can do: a header byte in `HEADER`, a byte of `RXBUF` otherwise. -/
theorem storeByte_ok {r r' : Rxf} {i : Nat} {v : Byte} (h : storeByte r i v = .ok r') :
    (r.st = .header ∧ ∃ hdr, r.hdr.set? i v = some hdr ∧ r' = { r with hdr := hdr }) ∨
    (r.st ≠ .header ∧ i < bufBytes ∧ r' = { r with rxbuf := Cells.set r.rxbuf i v }) := by
  unfold storeByte at h
  split at h
  · next hst =>
    unfold storeHeaderByte at h
    split at h
    · next hdr hs => exact .inl ⟨hst, hdr, hs, by simpa using h.symm⟩
    · simp at h
  · next hst =>
    unfold storePayloadByte at h
    split at h
    · next m hm =>
      obtain ⟨hi, rfl⟩ := (r.rxbuf.store_ok_iff m i v).mp hm
      exact .inr ⟨hst, hi, by simpa using h.symm⟩
    · simp at h

/-- Everything a bit's group can do (R152): nothing inside a group; at its end the nibble goes to `hi`, to a header byte or to
`RXBUF`. -/
theorem completeGroup_ok {c : Cfg} {r r' : Rxf} {n : Nat} (h : completeGroup c r n = .ok r') :
    (n % 7 ≠ 0 ∧ r' = r) ∨
    (n % 7 = 0 ∧ ∃ d, dec c (groupOf r.sh) = some d ∧
      (((n / 7 - 1) % 2 = 0 ∧ r' = { r with corr := addCorrected r.corr d, hi := d.nibble }) ∨
       ((n / 7 - 1) % 2 ≠ 0 ∧ r.st = .header ∧ ∃ hdr, r.hdr.set? ((n / 7 - 1) / 2) (joinNibbles r.hi d.nibble) = some hdr ∧
          r' = { r with corr := addCorrected r.corr d, hdr := hdr }) ∨
       ((n / 7 - 1) % 2 ≠ 0 ∧ r.st ≠ .header ∧ (n / 7 - 1) / 2 < bufBytes ∧
          r' = { r with
            corr := addCorrected r.corr d
            rxbuf := Cells.set r.rxbuf ((n / 7 - 1) / 2) (joinNibbles r.hi d.nibble) }))) := by
  unfold completeGroup at h
  split at h
  · next h7 =>
    refine .inr ⟨h7, ?_⟩
    split at h
    · next nib r1 ht =>
      obtain ⟨d, hd, rfl, rfl⟩ := takeGroup_ok ht
      refine ⟨d, hd, ?_⟩
      unfold storeNibble at h
      split at h
      · next h2 => exact .inl ⟨h2, by simpa using h.symm⟩
      · next h2 =>
        obtain ⟨hst, hdr, hs, rfl⟩ | ⟨hst, hi, rfl⟩ := storeByte_ok h
        · exact .inr (.inl ⟨h2, hst, hdr, hs, rfl⟩)
        · exact .inr (.inr ⟨h2, hst, hi, rfl⟩)
    · simp at h
  · next h7 => exact .inl ⟨h7, by simpa using h.symm⟩

/-- A bit inside a group completes nothing. -/
theorem completeGroup_inside (c : Cfg) (r : Rxf) {n : Nat} (h : n % 7 ≠ 0) : completeGroup c r n = .ok r := if_neg h

/-- R52: under a well-formed `cfg`, a group whose byte has its place completes. -/
theorem completeGroup_total {c : Cfg} (h : c.wf = true) (r : Rxf) (n : Nat)
    (hh : r.st = .header → n ≤ 56) (hp : r.st ≠ .header → n ≤ 3570) : ∃ r', completeGroup c r n = .ok r' := by
  by_cases h7 : n % 7 = 0
  · obtain ⟨d, _, ht⟩ := takeGroup_of_wf h r (groupOf r.sh)
    simp only [completeGroup, h7, if_true, ht, storeNibble]
    split
    · exact ⟨_, rfl⟩
    · next h2 =>
      by_cases hst : r.st = .header
      · have hset := (r.hdr.set?_isSome_iff ((n / 7 - 1) / 2) (joinNibbles r.hi d.nibble)).mpr (by have := hh hst; omega)
        obtain ⟨hdr, hs⟩ := Option.isSome_iff_exists.mp hset
        exact ⟨{ r with corr := addCorrected r.corr d, hdr := hdr }, by simp only [storeByte, storeHeaderByte, hst, if_true, hs]⟩
      · have hs := r.rxbuf.store_of_lt (i := (n / 7 - 1) / 2) (joinNibbles r.hi d.nibble)
          (by have := hp hst; simp only [bufBytes]; omega)
        exact ⟨_, by simp only [storeByte, storePayloadByte, hst, if_false, hs]; rfl⟩
  · exact ⟨r, completeGroup_inside c r h7⟩

/-- When the store of a completed byte stops: at an index the header, or `RXBUF`, does not have. -/
theorem storeByte_error_iff (r : Rxf) (i : Nat) (v : Byte) (f : Fault) :
    storeByte r i v = .error f ↔ f = .outsideStore ∧ ((r.st = .header ∧ 4 ≤ i) ∨ (r.st ≠ .header ∧ bufBytes ≤ i)) := by
  unfold storeByte
  split
  · next hst =>
    have hi := r.hdr.set?_isSome_iff i v
    unfold storeHeaderByte
    cases hs : r.hdr.set? i v with
    | none =>
      rw [hs] at hi
      simp [hst, Nat.not_lt.mp fun h => absurd (hi.mpr h) (by simp), eq_comm]
    | some hdr =>
      rw [hs] at hi
      simp [hst, Nat.not_le.mpr (hi.mp rfl)]
  · next hst =>
    unfold storePayloadByte
    by_cases hi : i < bufBytes
    · rw [r.rxbuf.store_of_lt v hi]
      simp [hst, Nat.not_le.mpr hi]
    · rw [r.rxbuf.store_of_ge v (Nat.not_lt.mp hi)]
      simp [hst, Nat.not_lt.mp hi, eq_comm]

/-- When a bit's group stops: its syndrome has no column (log 5), or its byte has no place (log 7). -/
theorem completeGroup_error_iff (c : Cfg) (r : Rxf) (n : Nat) (f : Fault) :
    completeGroup c r n = .error f ↔ n % 7 = 0 ∧
      ((f = .cfgIllFormed ∧ dec c (groupOf r.sh) = none) ∨
       (f = .outsideStore ∧ dec c (groupOf r.sh) ≠ none ∧ (n / 7 - 1) % 2 ≠ 0 ∧
         ((r.st = .header ∧ 4 ≤ (n / 7 - 1) / 2) ∨ (r.st ≠ .header ∧ bufBytes ≤ (n / 7 - 1) / 2)))) := by
  unfold completeGroup takeGroup
  by_cases h7 : n % 7 = 0
  · cases hd : dec c (groupOf r.sh) with
    | none => simp [h7, eq_comm]
    | some d =>
      by_cases h2 : (n / 7 - 1) % 2 = 0
      · simp [h7, storeNibble, h2]
      · simp [h7, storeNibble, h2, storeByte_error_iff]
  · simp [h7]

/-- A bit in `HEADER` or `PAYLOAD` stops exactly where its group does. -/
theorem groupBit_error_iff (fin : Rxf → Nat → Rxf × Option Event) (c : Cfg) (r : Rxf) (b : Bool) (f : Fault) :
    groupBit fin c r b = .error f ↔ completeGroup c (shiftGroup r b) (r.bitcnt.toNat + 1) = .error f := by
  unfold groupBit
  cases completeGroup c (shiftGroup r b) (r.bitcnt.toNat + 1) <;> simp

/-! ### The ends of the states (R154, R156) -/

/-- Everything the validation of the header can do. -/
theorem headerEnd_cases (r : Rxf) (n : Nat) :
    (n ≠ 56 ∧ headerEnd r n = (r, none)) ∨
    (n = 56 ∧ r.hdr.plen = 0 ∧ headerEnd r n = (rxClear r, some .headerCorrupt)) ∨
    (n = 56 ∧ r.hdr.plen ≠ 0 ∧ headerEnd r n = ({ r with st := .payload, bitcnt := 0, sh := 0 }, none)) := by
  unfold headerEnd
  by_cases h : n = 56
  · by_cases h0 : r.hdr.plen = 0
    · exact .inr (.inl ⟨h, h0, by rw [if_pos h, if_pos h0]⟩)
    · exact .inr (.inr ⟨h, h0, by rw [if_pos h, if_neg h0]⟩)
  · exact .inl ⟨h, if_neg h⟩

/-- Everything the end of the payload can do. -/
theorem payloadEnd_cases (r : Rxf) (n : Nat) :
    (n ≠ 14 * r.hdr.plen.toNat ∧ payloadEnd r n = (r, none)) ∨
    (n = 14 * r.hdr.plen.toNat ∧ payloadEnd r n = ({ r with st := .endCheck, bitcnt := 0, sh := 0 }, none)) := by
  unfold payloadEnd
  by_cases h : n = 14 * r.hdr.plen.toNat
  · exact .inr ⟨h, if_pos h⟩
  · exact .inl ⟨h, if_neg h⟩

/-- Everything one bit can do in `HEADER` or `PAYLOAD`. -/
theorem groupBit_ok {fin : Rxf → Nat → Rxf × Option Event} {c : Cfg} {r : Rxf} {b : Bool} {p : Rxf × Option Event}
    (h : groupBit fin c r b = .ok p) :
    ∃ r', completeGroup c (shiftGroup r b) (r.bitcnt.toNat + 1) = .ok r' ∧ p = fin r' (r.bitcnt.toNat + 1) := by
  unfold groupBit at h
  split at h
  · next r' hc => exact ⟨r', hc, by simpa using h.symm⟩
  · simp at h

/-- Everything one bit can do in `END_CHECK`. -/
theorem endBit_ok {c : Cfg} {r : Rxf} {b : Bool} {p : Rxf × Option Event} (h : endBit c r b = .ok p) :
    (r.bitcnt.toNat + 1 ≠ 8 ∧ p = ({ r with sh := shiftIn r.sh b, bitcnt := r.bitcnt + 1 }, none)) ∨
    (r.bitcnt.toNat + 1 = 8 ∧ endMatch c (shiftIn r.sh b) = true ∧ ∃ payload, r.rxbuf.load r.hdr.plen.toNat = .ok payload ∧
      p = (rxClear r, some (.packetEmitted (packetOf r payload)))) ∨
    (r.bitcnt.toNat + 1 = 8 ∧ endMatch c (shiftIn r.sh b) = false ∧ p = (rxClear r, some .endMarkerMismatch)) := by
  unfold endBit at h
  split at h
  · next h8 =>
    split at h
    · next hm =>
      split at h
      · next payload hl => exact .inr (.inl ⟨h8, hm, payload, hl, by simpa using h.symm⟩)
      · simp at h
    · next hm => exact .inr (.inr ⟨h8, by simpa using hm, by simpa using h.symm⟩)
  · next h8 => exact .inl ⟨h8, by simpa using h.symm⟩

/-- A bit in `END_CHECK` stops exactly where it would emit a byte nothing has written (log 6). -/
theorem endBit_error_iff (c : Cfg) (r : Rxf) (b : Bool) (f : Fault) :
    endBit c r b = .error f ↔ f = .unwrittenByte ∧ r.bitcnt.toNat + 1 = 8 ∧ endMatch c (shiftIn r.sh b) = true ∧
      ∃ i, i < r.hdr.plen.toNat ∧ r.rxbuf.get? i = none := by
  have hp : r.hdr.plen.toNat ≤ bufBytes := Nat.le_of_lt_succ r.hdr.plen.isLt
  unfold endBit
  by_cases h8 : r.bitcnt.toNat + 1 = 8
  · by_cases hm : endMatch c (shiftIn r.sh b) = true
    · have hl := r.rxbuf.load_error_iff r.hdr.plen.toNat f
      simp only [Nat.not_lt.mpr hp, and_false, hp, true_and, false_or] at hl
      rw [if_pos h8, if_pos hm]
      simp only [h8, hm, true_and, ← hl]
      cases r.rxbuf.load r.hdr.plen.toNat <;> simp
    · simp [h8, hm]
  · simp [h8]

/-! ### The step of the receive framer (R147) -/

theorem rxStep_searching {c : Cfg} {r : Rxf} (h : r.st = .searching) (b : Bool) : rxStep c r b = .ok (searchBit c r b, none) := by
  simp only [rxStep, h]

theorem rxStep_header {c : Cfg} {r : Rxf} (h : r.st = .header) (b : Bool) : rxStep c r b = groupBit headerEnd c r b := by
  simp only [rxStep, h]

theorem rxStep_payload {c : Cfg} {r : Rxf} (h : r.st = .payload) (b : Bool) : rxStep c r b = groupBit payloadEnd c r b := by
  simp only [rxStep, h]

theorem rxStep_endCheck {c : Cfg} {r : Rxf} (h : r.st = .endCheck) (b : Bool) : rxStep c r b = endBit c r b := by
  simp only [rxStep, h]

/-- Everything `RXBIT` can do when it goes on: the step of `RXF`, and `record` of its event if it has one. -/
theorem execRxbit_next (b : Bool) (s t : State) :
    exec (.rxbit b) s = .next t ↔
      (∃ r, rxStep s.cfg s.rx b = .ok (r, none) ∧ t = { s with rx := r, resp := some .ok }) ∨
      (∃ r ev u, rxStep s.cfg s.rx b = .ok (r, some ev) ∧ record ev s.stat = .ok u ∧
        t = { s with rx := r, stat := u, resp := some (eventResponse ev) }) := by
  simp only [exec, execRxbit]
  cases h : rxStep s.cfg s.rx b with
  | error f => simp
  | ok p =>
    obtain ⟨r, ev⟩ := p
    cases ev with
    | none =>
      simp only [respond_next, Except.ok.injEq, Prod.mk.injEq, and_true, reduceCtorEq, and_false, false_and, exists_false,
        or_false]
      exact ⟨fun h => ⟨r, rfl, h⟩, fun ⟨_, hr, h⟩ => hr ▸ h⟩
    | some ev =>
      cases hr : record ev s.stat with
      | error f => simp [hr]
      | ok u => simp [hr, respond]; constructor <;> exact fun h => h.symm

/-- When `RXBIT` stops: where the step of `RXF` does, and where an emission's count has no bin (log 7). -/
theorem execRxbit_fault (b : Bool) (s : State) (f : Fault) :
    exec (.rxbit b) s = .fault f ↔
      rxStep s.cfg s.rx b = .error f ∨
      (f = .outsideStore ∧ ∃ r pkt, rxStep s.cfg s.rx b = .ok (r, some (.packetEmitted pkt)) ∧
        histBins ≤ pkt.correctedBitCount) := by
  simp only [exec, execRxbit]
  cases h : rxStep s.cfg s.rx b with
  | error g => simp
  | ok p =>
    obtain ⟨r, ev⟩ := p
    cases ev with
    | none => simp
    | some ev =>
      cases ev with
      | packetEmitted pkt =>
        have hb := s.stat.hist.bump_error_iff pkt.correctedBitCount
        simp only [record]
        cases hr : s.stat.hist.bump pkt.correctedBitCount with
        | ok h' =>
          have : ¬ histBins ≤ pkt.correctedBitCount := fun hc => by
            have := (hb .outsideStore).mpr ⟨rfl, hc⟩
            rw [hr] at this
            exact absurd this (by simp)
          simpa using fun _ => Nat.not_le.mp this
        | error g =>
          obtain ⟨rfl, hc⟩ := (hb g).mp hr
          simp [hc, eq_comm]
      | headerCorrupt => simp [record]
      | endMarkerMismatch => simp [record]

end Sys2Proof.Machine
end

