-- ==== Sys2Proof/Laws/Exec.lean ====
section
/-! SUPPORT. What each command can do when it goes on, said once for each (the receive command's stands in Laws/Rx.lean), and what
every command leaves alone. -/

namespace Sys2Proof.Machine

theorem execNop_next (s t : State) : exec .nop s = .next t ↔ t = { s with resp := some .ok } := respond_next _ s t

theorem execEnc_next (n : Nibble) (s t : State) :
    exec (.enc n) s = .next t ↔ t = { s with resp := some (.codeword (enc s.cfg n)) } := respond_next _ s t

theorem execDec_next (c : Codeword) (s t : State) :
    exec (.dec c) s = .next t ↔ ∃ r, dec s.cfg c = some r ∧ t = { s with resp := some (.decoded r) } := by
  simp only [exec, execDec]
  cases dec s.cfg c <;> simp

theorem execRxrst_next (s t : State) :
    exec .rxrst s = .next t ↔ t = { s with rx := rxClear s.rx, resp := some .ok } := respond_next _ _ t

theorem execTxclr_next (s t : State) :
    exec .txclr s = .next t ↔ t = { clearStaging s with resp := some .ok } := respond_next _ _ t

theorem execSnap_next (s t : State) :
    exec .snap s = .next t ↔ t = { s with resp := some (.snapshot s.stat) } := respond_next _ s t

/-- R122: the two cases of `TXPUT`; it never stops. -/
theorem execTxput_next (v : Byte) (s t : State) :
    exec (.txput v) s = .next t ↔
      (s.tx.txlen.toNat ≤ 254 ∧ t = { s with
        tx := { txlen := s.tx.txlen + 1, txbuf := Cells.set s.tx.txbuf s.tx.txlen.toNat v }, resp := some .ok }) ∨
      (254 < s.tx.txlen.toNat ∧ t = { s with tx := { s.tx with txlen := 256 }, resp := some .ok }) := by
  simp only [exec, execTxput]
  split
  · next h =>
    rw [Memory.store_of_lt _ v (by simp only [bufBytes]; omega)]
    simp only [respond_next, h, true_and, Nat.not_lt.mpr h, false_and, or_false]
  · next h => simp only [respond_next, h, false_and, Nat.not_le.mp h, true_and, false_or]

/-- R125: the three cases of a `TXBUILD` that goes on. -/
theorem execTxbuild_next (q : Byte) (s t : State) :
    exec (.txbuild q) s = .next t ↔
      ((s.tx.txlen = 0 ∨ s.tx.txlen = 256) ∧ t = { clearStaging s with resp := some (.error .invalidPayloadSize) }) ∨
      (¬ (s.tx.txlen = 0 ∨ s.tx.txlen = 256) ∧ ∃ msg, s.tx.txbuf.load s.tx.txlen.toNat = .ok msg ∧
        ((∃ bits, build s.cfg msg q = .ok bits ∧ t = { clearStaging s with resp := some (.bits bits) }) ∨
         (∃ e, build s.cfg msg q = .error e ∧ t = { clearStaging s with resp := some (.error e) }))) := by
  simp only [exec, execTxbuild, overflowMark, beq_iff_eq]
  split
  · next h => simp only [raise_next, h, true_and, not_true, false_and, or_false]
  · next h =>
    simp only [h, false_and, not_false_eq_true, true_and, false_or]
    cases hl : s.tx.txbuf.load s.tx.txlen.toNat with
    | error f => simp
    | ok msg =>
      cases hb : build s.cfg msg q <;> simp [hb]

/-- When a `TXBUILD` stops: where the read of the staged message does. -/
theorem execTxbuild_fault (q : Byte) (s : State) (f : Fault) :
    exec (.txbuild q) s = .fault f ↔
      ¬ (s.tx.txlen = 0 ∨ s.tx.txlen = 256) ∧ s.tx.txbuf.load s.tx.txlen.toNat = .error f := by
  simp only [exec, execTxbuild, overflowMark, beq_iff_eq]
  split
  · next h => simp only [raise_ne_fault, h, not_true, false_and]
  · next h =>
    simp only [h, not_false_eq_true, true_and]
    cases s.tx.txbuf.load s.tx.txlen.toNat with
    | error g => simp
    | ok msg => cases hb : build s.cfg msg q <;> simp [hb]

/-- R9, R21: no command touches `cfg`, and none touches what the host has still to issue. -/
theorem exec_keeps_cfg_cmds {i : Instr} {s t : State} (h : exec i s = .next t) : t.cfg = s.cfg ∧ t.cmds = s.cmds := by
  cases i with
  | nop => exact ((execNop_next s t).mp h) ▸ ⟨rfl, rfl⟩
  | enc n => exact ((execEnc_next n s t).mp h) ▸ ⟨rfl, rfl⟩
  | dec c =>
    obtain ⟨_, _, rfl⟩ := (execDec_next c s t).mp h
    exact ⟨rfl, rfl⟩
  | rxbit b =>
    obtain ⟨_, _, rfl⟩ | ⟨_, _, _, _, _, rfl⟩ := (execRxbit_next b s t).mp h <;> exact ⟨rfl, rfl⟩
  | rxrst => exact ((execRxrst_next s t).mp h) ▸ ⟨rfl, rfl⟩
  | txput v => obtain ⟨_, rfl⟩ | ⟨_, rfl⟩ := (execTxput_next v s t).mp h <;> exact ⟨rfl, rfl⟩
  | txbuild q =>
    obtain ⟨_, rfl⟩ | ⟨_, _, _, ⟨_, _, rfl⟩ | ⟨_, _, rfl⟩⟩ := (execTxbuild_next q s t).mp h <;> exact ⟨rfl, rfl⟩
  | txclr => exact ((execTxclr_next s t).mp h) ▸ ⟨rfl, rfl⟩
  | snap => exact ((execSnap_next s t).mp h) ▸ ⟨rfl, rfl⟩

/-- Everything a step can do when it goes on: wait, execute the next command, or answer an illegal word. -/
theorem step_next (s t : State) :
    step s = .next t ↔
      (s.cmds = [] ∧ t = { s with resp := none }) ∨
      (∃ w rest, s.cmds = w :: rest ∧
        ((∃ i, decode w = .ok i ∧ exec i { s with cmds := rest } = .next t) ∨
         (∃ e, decode w = .error e ∧ t = { s with cmds := rest, resp := some (.error .illegalCommand) }))) := by
  unfold step
  cases hc : s.cmds with
  | nil => simp [eq_comm]
  | cons w rest =>
    cases hd : decode w <;> simp [hd]

/-- The word the host issues next is the one `withFetchWord` put there. -/
theorem withFetchWord_cmds (s : State) (nbits w : Nat) :
    (s.withFetchWord nbits w).cmds = BitVec.ofNat 16 (w % 2 ^ nbits) :: s.cmds := rfl

end Sys2Proof.Machine
end

