-- ==== Sys2Proof/Laws/PerInstr.lean ====
section
/-! SUPPORT. Statements about each command as syntax, one lemma for each constructor of `Instr`. -/

/-! ### Family Row: the word of a command selects the command's own row of the opcode map (spec/30_encoding.md R81) -/

namespace Sys2Proof.Laws.Row

/-- R81: the word of `i` selects the row of `i`'s mnemonic. -/
def Statement (i : Instr) : Prop := ∃ row ∈ opcodeRows, row.1 = mnemonic i ∧ selectsRow (encode i) row = true

/-- A row at a place of the map that an encoding selects. -/
theorem of_row {i : Instr} (k : Nat) (row : String × Word × Word) (hk : opcodeRows[k]? = some row) (hm : row.1 = mnemonic i)
    (hs : selectsRow (encode i) row = true) : Statement i :=
  ⟨row, List.mem_of_getElem? hk, hm, hs⟩

theorem nop : Statement .nop := of_row 0 _ rfl rfl (by decide)

theorem enc (n : Nibble) : Statement (.enc n) := of_row 1 _ rfl rfl (by revert n; decide)

theorem dec (c : Codeword) : Statement (.dec c) := of_row 2 _ rfl rfl (by revert c; decide)

theorem rxbit (b : Bool) : Statement (.rxbit b) := of_row 3 _ rfl rfl (by revert b; decide)

theorem rxrst : Statement .rxrst := of_row 4 _ rfl rfl (by decide)

theorem txput (v : Byte) : Statement (.txput v) := of_row 5 _ rfl rfl (by revert v; decide)

theorem txbuild (q : Byte) : Statement (.txbuild q) := of_row 6 _ rfl rfl (by revert q; decide)

theorem txclr : Statement .txclr := of_row 7 _ rfl rfl (by decide)

theorem snap : Statement .snap := of_row 8 _ rfl rfl (by decide)

end Sys2Proof.Laws.Row
end

