-- ==== Sys2Proof/Tests/Slice0.lean ====
section
/-! SUPPORT. The model's own tests: well-formedness, decoding, one or two steps of each command, and for each obligation with
hypotheses a state and operands that meet them. Expected values come from the rules and vectors each test names, not from the
model. -/

namespace Sys2Proof.Tests

open Sys2Proof.Machine

/-! ### Small states -/

/-- The reset device with its receiver's registers given. -/
def withRx (r : Rxf) : State := { State.reset with rx := r }

/-- The reset device with `txlen` and `TXBUF` given. -/
def withTx (n : BitVec 9) (m : Memory) : State := { State.reset with tx := ⟨n, m⟩ }

/-- A receiver in `HEADER`: the header bytes so far hold `plen` and `seq`. -/
def inHeader (bitcnt : BitVec 12) (sh : BitVec 8) (hi : Nibble) (plen seq : Byte) : Rxf :=
  { Rxf.reset with st := .header, bitcnt := bitcnt, sh := sh, hi := hi, hdr := ⟨plen, seq, 0, 0⟩ }

/-- A receiver in `PAYLOAD` of a packet of `plen` bytes. -/
def inPayload (bitcnt : BitVec 12) (sh : BitVec 8) (hi : Nibble) (plen : Byte) (m : Memory) : Rxf :=
  { Rxf.reset with st := .payload, bitcnt := bitcnt, sh := sh, hi := hi, hdr := ⟨plen, 1, 0, 0⟩, rxbuf := m }

/-- A receiver in `END_CHECK` of a packet of `plen` bytes. -/
def inEndCheck (bitcnt : BitVec 12) (sh : BitVec 8) (plen : Byte) (m : Memory) : Rxf :=
  { Rxf.reset with st := .endCheck, bitcnt := bitcnt, sh := sh, hdr := ⟨plen, 1, 0, 0⟩, rxbuf := m }

/-- The payload of spec/95_test_vectors.md V20. -/
def payloadV20 : Memory := [(0, 0x48), (1, 0x69)]

/-- The state after a step, where there is one. -/
def after (o : Host.Outcome State Fault Refusal) : Option State :=
  match o with
  | .next t => some t
  | .fault _ => none
  | .refused _ => none

/-- The response of a step, where there is one. -/
def responseOf (o : Host.Outcome State Fault Refusal) : Option Response := (after o).bind State.resp

/-- The fault a step stops with, where it does. -/
def faultOf (o : Host.Outcome State Fault Refusal) : Option Fault :=
  match o with
  | .next _ => none
  | .fault f => some f
  | .refused _ => none

/-- A configuration no device may have: two data bits with one column. -/
def cfgTwinColumns : Cfg := { cfg0 with pmask2 := 0b0110, pmask1 := 0b1101, pmask0 := 0b1011, syncTol := 2 }

/-! ### Well-formedness (spec/00_scope.md R12) and the assembler's check (spec/30_encoding.md R86) -/

theorem test_wf_cfg0 : cfg0.wf = true := by decide
/-- (a): `d[0]` and `d[3]` share the column `011`. -/
theorem test_wf_refuses_equal_columns : cfgTwinColumns.columnsWf = false ∧ cfgTwinColumns.wf = false := by decide
/-- (a): `d[3]` takes part in no parity bit. -/
theorem test_wf_refuses_zero_column :
    ({ cfg0 with pmask2 := 0b0110, pmask1 := 0b0101, pmask0 := 0b0011 } : Cfg).columnsWf = false := by decide
/-- (a): `d[3]` takes part in one parity bit only, so its column is that of `p[2]`. -/
theorem test_wf_refuses_parity_column : ({ cfg0 with pmask1 := 0b0101, pmask0 := 0b0011 } : Cfg).columnsWf = false := by decide
/-- (b). -/
theorem test_wf_refuses_equal_markers : ({ cfg0 with endMarker := 0xFC } : Cfg).wf = false := by decide
theorem test_wf_refuses_start_as_preamble_high : ({ cfg0 with startMarker := 0x1A } : Cfg).wf = false := by decide
theorem test_wf_refuses_start_as_preamble_low : ({ cfg0 with startMarker := 0xCF } : Cfg).wf = false := by decide
theorem test_wf_refuses_end_as_preamble_high : ({ cfg0 with endMarker := 0x1A } : Cfg).wf = false := by decide
theorem test_wf_refuses_end_as_preamble_low : ({ cfg0 with endMarker := 0xCF } : Cfg).wf = false := by decide
/-- (c). -/
theorem test_wf_refuses_sync_tol : ({ cfg0 with syncTol := 12 } : Cfg).wf = false := by decide
theorem test_wf_takes_sync_tol_eleven : ({ cfg0 with syncTol := 11 } : Cfg).wf = true := by decide
theorem test_wf_refuses_end_tol : ({ cfg0 with endTol := 0 } : Cfg).wf = false := by decide
/-- R86: an operand out of range is an assembler error. -/
theorem test_asm_wf_operand :
    (AsmLine.command "ENC" (some 16)).wf = false ∧ (AsmLine.command "RXBIT" (some 2)).wf = false ∧
    (AsmLine.command "NOP" (some 0)).wf = false ∧ (AsmLine.command "ENC" none).wf = false ∧
    (AsmLine.command "ENC" (some 15)).wf = true := by decide

/-! ### Decoding: words written out from the patterns of spec/30_encoding.md R81 -/

theorem test_decode_nop : decode 0b0000_0000_0000_0000 = .ok .nop := by decide
theorem test_decode_enc : decode 0b0001_0000_0000_1011 = .ok (.enc 0xB) := by decide
theorem test_decode_dec : decode 0b0010_0000_0101_1100 = .ok (.dec 0x5C) := by decide
theorem test_decode_rxbit : decode 0b0011_0000_0000_0000 = .ok (.rxbit false) ∧
    decode 0b0011_0000_0000_0001 = .ok (.rxbit true) := by decide
theorem test_decode_rxrst : decode 0b0100_0000_0000_0000 = .ok .rxrst := by decide
theorem test_decode_txput : decode 0b0101_0000_1000_0001 = .ok (.txput 0x81) := by decide
theorem test_decode_txbuild : decode 0b0110_0000_1010_1010 = .ok (.txbuild 0xAA) := by decide
theorem test_decode_txclr : decode 0b0111_0000_0000_0000 = .ok .txclr := by decide
theorem test_decode_snap : decode 0b1000_0000_0000_0000 = .ok .snap := by decide
/-- V60: one word of each illegal kind. -/
theorem test_decode_illegal : decode 0x1010 = .error .reservedBit ∧ decode 0x9000 = .error .reservedOpcode := by decide
theorem test_decodeTableWord : decodeTableWord 16 0x5048 = some (.txput 0x48) ∧ decodeTableWord 16 0x9000 = none := by decide
/-- P1: the word the host places is the next one a step takes. -/
theorem test_withFetchWord : responseOf (step (State.reset.withFetchWord 16 0x100B)) = some (.codeword 0x59) := by decide

/-! ### One step of each command -/

/-- R141's worked example. -/
theorem test_nop_holds_header :
    (after (exec .nop (withRx (inHeader 20 0x40 0 2 0)))).map State.rx = some (inHeader 20 0x40 0 2 0) := by decide

/-- V1: the nibbles `0xB` and `0x8`. -/
theorem test_enc_B : responseOf (exec (.enc 0xB) .reset) = some (.codeword 0x59) := by decide
theorem test_enc_8 : responseOf (exec (.enc 0x8) .reset) = some (.codeword 0x47) := by decide

/-- P1: one flipped bit, and two. -/
theorem test_dec_one_flip : responseOf (exec (.dec 0x5D) .reset) = some (.decoded ⟨0xB, true, .one⟩) := by decide
theorem test_dec_two_flips : responseOf (exec (.dec 0x5C) .reset) = some (.decoded ⟨0x9, true, .one⟩) := by decide

/-- R147's worked example, its last bit: 23 bits of `0x1ACFFC` are in the window. -/
theorem test_rxbit_syncs :
    (after (exec (.rxbit false) (withRx { Rxf.reset with win := 0x0D67FE, wfill := 23 }))).map State.rx =
      some (inHeader 0 0 0 0 0) := by decide
/-- V30, its last bit. -/
theorem test_rxbit_emits :
    (after (exec (.rxbit true) (withRx (inEndCheck 7 0x0E 2 payloadV20)))).map (fun t => (t.rx.st, t.stat.nEmitted, t.resp)) =
      some (.searching, 1, some (.packet ⟨0x01, [0x48, 0x69], 0, false⟩)) := by decide

/-- R160's worked example. -/
theorem test_rxrst_clears :
    (after (exec .rxrst (withRx { inHeader 20 0x40 0 2 0 with corr := 1 }))).map State.rx = some .reset := by decide

/-- R122's worked example and its corner cases. -/
theorem test_txput_first : (after (exec (.txput 0x48) .reset)).map State.tx = some ⟨1, [(0, 0x48)]⟩ := by decide
theorem test_txput_overflows : (after (exec (.txput 0xFF) (withTx 255 []))).map State.tx = some ⟨256, []⟩ := by decide

/-- V20. -/
theorem test_txbuild_V20 :
    responseOf (exec (.txbuild 0x01) (withTx 2 payloadV20)) =
      some (.bits (msbBits (0x1ACFFC005400B00000004D1D9CC1D : BitVec 116))) := by decide
/-- P4, step 1. -/
theorem test_txbuild_nothing_staged :
    responseOf (exec (.txbuild 0x05) .reset) = some (.error .invalidPayloadSize) := by decide

/-- R121's worked example. -/
theorem test_txclr : (after (exec .txclr (withTx 1 [(0, 0x48)]))).map State.tx = some ⟨0, [(0, 0x48)]⟩ := by decide

/-- R184's worked example. -/
theorem test_snap :
    responseOf (exec .snap { State.reset with stat := ⟨1, 1, 0, 2, [(2, 1)]⟩ }) = some (.snapshot ⟨1, 1, 0, 2, [(2, 1)]⟩) := by
  decide

/-! ### The assembler (spec/30_encoding.md R86, R87) -/

theorem test_asm_line : assembleLine "ENC 0xB ; comment" = some [.enc 0xB] := by decide
theorem test_asm_txmsg :
    assembleLine "TXMSG 0x01, 0x48, 0x69" = some [.txclr, .txput 0x48, .txput 0x69, .txbuild 1] := by decide
/-- P3, step 3. -/
theorem test_asm_rxhex :
    assembleLine "RXHEX 4 0x6" = some [.rxbit false, .rxbit true, .rxbit true, .rxbit false] := by decide
/-- R87: `h` is hexadecimal and nothing else (log 14). -/
theorem test_asm_rxhex_only_hexadecimal :
    assembleLine "RXHEX 8 10" = none ∧ assembleLine "RXHEX 8 0b10" = none ∧
    assembleLine "RXHEX 1 0x1" = some [.rxbit true] := by decide
/-- R87: one comma between two operands, none missing and none doubled; with no bytes `TXCLR`, `TXBUILD q`. -/
theorem test_asm_txmsg_commas :
    assembleLine "TXMSG 1 2" = none ∧ assembleLine "TXMSG 1,,2" = none ∧ assembleLine "TXMSG 1," = none ∧
    assembleLine "TXMSG" = none ∧ assembleLine "TXMSG 7" = some [.txclr, .txbuild 7] := by decide

/-! ### Condition codes (spec/30_encoding.md R85, spec/60_exceptions.md R191) -/

theorem test_codes_of_commands :
    wordCode 0x0000 .reset = some 0 ∧ wordCode 0x6005 .reset = some 4 ∧ wordCode 0x9000 .reset = some 5 := by decide
theorem test_codes_of_events :
    commandCode (.rxbit true) (withRx (inEndCheck 7 0x0E 2 payloadV20)) = some 1 ∧
    commandCode (.rxbit false) (withRx (inHeader 55 0 0 0 0)) = some 2 ∧
    commandCode (.rxbit false) (withRx (inEndCheck 7 0x0F 2 payloadV20)) = some 3 ∧
    commandCode (.rxbit false) (withRx (inHeader 20 0x40 0 2 0)) = some 0 := by decide

/-! ### Witnesses: a state and operands that meet the hypotheses of each obligation that has any, at the boundaries of its clauses -/

theorem witness_ResetMeetsInvariant : ∃ c : Cfg, c.wf = true := ⟨cfg0, by decide⟩

theorem witness_DecodeFollowsOpcodeMap :
    decode 0x100B = .ok (.enc 0xB) ∧ ("ENC", 0xFFF0, 0x1000) ∈ opcodeRows ∧ (0x100B : Word) &&& 0xFFF0 = 0x1000 := by decide

theorem witness_OperandIsLowBitsOfWord :
    decode 0x3001 = .ok (.rxbit true) ∧ decode 0x100F = .ok (.enc 0xF) ∧ decode 0x207F = .ok (.dec 0x7F) ∧
    decode 0x50FF = .ok (.txput 0xFF) ∧ decode 0x60FF = .ok (.txbuild 0xFF) := by decide

theorem witness_IllegalWordsChangeNothing :
    (State.reset.withFetchWord 16 0x9000).cmds = [0x9000] ∧ opcodeRows.all (fun row => !selectsRow 0x9000 row) = true ∧
    opcodeRows.all (fun row => !selectsRow 0x0001 row) = true := by decide

theorem witness_StepRunsDecodedCommand :
    (State.reset.withFetchWord 16 0x100B).cmds = 0x100B :: [] ∧ decode 0x100B = .ok (.enc 0xB) := by decide

theorem witness_WaitingChangesNothing : State.reset.cmds = [] := by decide

theorem witness_NoStepWritesCfg : ∃ s t : State, step s = .next t := ⟨State.reset, _, rfl⟩

theorem witness_EveryWordHasAStep : cfg0.wf = true ∧ Reachable cfg0 State.reset := ⟨by decide, .reset⟩

/-- The counters of a device that has recorded nothing. -/
theorem statInv_reset : StatInv Stat.reset := ⟨by decide, by decide +kernel, by decide +kernel⟩

theorem txInv_reset : TxInv Txf.reset := ⟨by decide, by decide, by decide⟩

theorem inv_withRx {r : Rxf} (h : RxInv r) : Inv (withRx r) := ⟨test_wf_cfg0, h, txInv_reset, statInv_reset⟩

theorem inv_inHeader : Inv (withRx (inHeader 20 0x40 0 2 0)) :=
  inv_withRx ⟨by decide, by decide, by decide, by decide, by decide, by decide, by decide, by decide, by decide, by decide⟩

/-- The last bit of a payload of one byte is about to arrive. -/
theorem inv_inPayload : Inv (withRx (inPayload 13 0x33 0x4 1 [])) :=
  inv_withRx ⟨by decide, by decide, by decide, by decide, by decide, by decide, by decide, by decide, by decide, by decide⟩

theorem inv_inEndCheck : Inv (withRx (inEndCheck 7 0x0E 2 payloadV20)) :=
  inv_withRx ⟨by decide, by decide, by decide, by decide, by decide, by decide, by decide, by decide, by decide, by decide⟩

theorem witness_StepKeepsInvariant :
    (∃ s t : State, Inv s ∧ s.rx.st = .header ∧ step s = .next t) ∧
    (∃ s t : State, Inv s ∧ s.rx.st = .payload ∧ exec (.rxbit false) s = .next t) ∧
    (∃ s t : State, Inv s ∧ s.rx.st = .endCheck ∧ exec (.rxbit true) s = .next t) :=
  ⟨⟨_, _, inv_inHeader, rfl, rfl⟩, ⟨_, _, inv_inPayload, rfl, rfl⟩, ⟨_, _, inv_inEndCheck, rfl, rfl⟩⟩

/-- The states from `s` on as the host issues the words one by one; none where a step stops. -/
def feed : List Word → State → Option State
  | [], s => some s
  | w :: ws, s => (after (step { s with cmds := [w] })).bind (feed ws)

theorem feed_reachable {c : Cfg} (ws : List Word) {s t : State} (hs : Reachable c s) (h : feed ws s = some t) : Reachable c t := by
  induction ws generalizing s with
  | nil => exact Option.some.inj h ▸ hs
  | cons w ws ih =>
    simp only [feed] at h
    cases hst : step { s with cmds := [w] } with
    | next u => rw [hst] at h; exact ih (.step (.issue [w] hs) hst) h
    | fault f => rw [hst] at h; simp [after] at h
    | refused r => rw [hst] at h; simp [after] at h

/-- A state in which `p` holds is reachable when feeding some words from reset ends in one. -/
theorem reachable_of_feed (ws : List Word) (p : State → Bool) (h : (feed ws State.reset).any p = true) :
    ∃ s, Reachable cfg0 s ∧ p s = true := by
  cases hf : feed ws State.reset with
  | none => rw [hf] at h; simp at h
  | some t => exact ⟨t, feed_reachable ws .reset hf, by rw [hf] at h; simpa using h⟩

/-- The first `n` bits of V21's one-byte packet as command words. -/
def wordsOfPacket (n : Nat) : List Word :=
  ((msbBits (0x06B3FF000BFFFC000000292D1D : BitVec 102)).take n).map (fun b => if b then 0x3001 else 0x3000)

/-- Reachable states in each of the four states of the machine, and the last step of a packet, which has an event. The one test
that runs many steps: no state outside `SEARCHING` is reached in fewer than 24. -/
theorem witness_ReachableStatesMeetR37 :
    cfg0.wf = true ∧ Reachable cfg0 State.reset ∧ State.reset.rx.st = .searching ∧ (∃ t, exec .rxrst State.reset = .next t) ∧
    (∃ s, Reachable cfg0 s ∧ (s.rx.st == .header) = true) ∧ (∃ s, Reachable cfg0 s ∧ (s.rx.st == .payload) = true) ∧
    (∃ s, Reachable cfg0 s ∧ (s.rx.st == .endCheck && (eventOf (.rxbit true) s).isSome) = true) :=
  ⟨test_wf_cfg0, .reset, rfl, ⟨_, rfl⟩, reachable_of_feed (wordsOfPacket 24) _ (by decide +kernel),
    reachable_of_feed (wordsOfPacket 80) _ (by decide +kernel), reachable_of_feed (wordsOfPacket 101) _ (by decide +kernel)⟩

theorem witness_EncRespondsCodeword : State.reset.cfg = cfg0 := by decide

theorem witness_CodeIsLinearOfDistanceThree : cfg0.wf = true ∧ (0x0 : Nibble) ≠ 0xF := by decide

theorem witness_PosIsTheBitOfTheColumn : cfg0.wf = true ∧ (0b111 : Syndrome) ≠ 0 := by decide

theorem witness_DecRespondsCorrectedNibble :
    State.reset.cfg.wf = true ∧ syn State.reset.cfg 0x59 = 0 ∧ syn State.reset.cfg 0x5D ≠ 0 ∧ State.reset.cfg = cfg0 := by
  decide

theorem witness_DecUndoesEverySingleFlip : cfg0.wf = true ∧ 0 < 7 ∧ 6 < 7 := by decide

/-- Three flips whose columns cancel (`001`, `010`, `011`), and three whose columns do not. -/
theorem witness_DecMiscorrectsTwoAndThreeFlips :
    cfg0.wf = true ∧
    (syn cfg0 (1#7 <<< 0) ^^^ syn cfg0 (1#7 <<< 1)) ^^^ syn cfg0 (1#7 <<< 3) = 0 ∧
    (syn cfg0 (1#7 <<< 0) ^^^ syn cfg0 (1#7 <<< 1)) ^^^ syn cfg0 (1#7 <<< 2) ≠ 0 := by decide

theorem witness_UncertainIsNeverReported :
    (∃ r, dec cfg0 0x5C = some r) ∧
    ∃ (s t : State) (b : Bool) (pkt : DecodedPacket), Inv s ∧ exec (.rxbit b) s = .next t ∧ t.resp = some (.packet pkt) :=
  ⟨⟨_, rfl⟩, _, _, true, _, inv_inEndCheck, rfl, rfl⟩

/-- Under `cfgTwinColumns` no bit has the column `111`. -/
theorem witness_DecStopsOnlyWithoutColumn :
    faultOf (exec (.dec 0x07) { State.reset with cfg := cfgTwinColumns }) = some .cfgIllFormed := by decide

theorem witness_TxputStagesOneByte :
    (withTx 254 []).tx.txlen.toNat ≤ 254 ∧ 254 < (withTx 255 []).tx.txlen.toNat := by decide

theorem witness_TxbuildRefusesBadLength : (withTx 0 []).tx.txlen = 0 ∧ (withTx 256 []).tx.txlen = 256 := by decide

/-- A message of 255 bytes, staged. -/
def longMessage : List Byte := List.replicate 255 0xA5

def longStaged : Memory := (List.range 255).map (fun i => (i, 0xA5))

theorem witness_TxbuildSendsStagedPacket :
    (∃ (s : State) (msg : List Byte), s.tx.txlen.toNat = 1 ∧ msg.length = s.tx.txlen.toNat ∧
      ∀ i, i < msg.length → s.tx.txbuf.get? i = msg[i]?) ∧
    (∃ (s : State) (msg : List Byte), s.tx.txlen.toNat = 255 ∧ msg.length = s.tx.txlen.toNat ∧
      ∀ i, i < msg.length → s.tx.txbuf.get? i = msg[i]?) :=
  ⟨⟨withTx 1 [(0, 0x48)], [0x48], by decide⟩, ⟨withTx 255 longStaged, longMessage, by decide +kernel⟩⟩

theorem witness_TxbuildLeavesStagingEmpty : ∃ (s t : State), exec (.txbuild 1) s = .next t :=
  ⟨withTx 1 [(0, 0x48)], _, rfl⟩

theorem witness_PacketFieldsOnTheWire :
    (∃ msg : List Byte, msg.length = 1) ∧ ∃ msg : List Byte, msg.length = 255 := ⟨⟨[0x48], rfl⟩, longMessage, List.length_replicate⟩

theorem witness_StagedMessageIsBuilt :
    (∃ msg : List Byte, msg.length = 0) ∧ (∃ msg : List Byte, msg.length = 1) ∧ (∃ msg : List Byte, msg.length = 255) ∧
    ∃ msg : List Byte, 255 < msg.length := 
  ⟨⟨[], rfl⟩, ⟨[0], rfl⟩, ⟨longMessage, List.length_replicate⟩, 0 :: longMessage, by decide +kernel⟩

theorem witness_TxbuildStopsOutOfReach :
    256 < (withTx 257 []).tx.txlen.toNat ∧ (withTx 255 []).tx.txlen.toNat ≤ 255 ∧
    faultOf (exec (.txbuild 1) (withTx 257 [])) = some .outsideStore ∧
    faultOf (exec (.txbuild 1) (withTx 255 [])) = some .unwrittenByte ∧
    faultOf (exec (.txbuild 1) (withTx 256 [])) = none := by
  decide

/-- The pattern at distance 2 and 3 from `SYNC24`, and at distance 0 with one bit too few. -/
theorem witness_SearchingSlidesTheWindow :
    (after (exec (.rxbit true) (withRx { Rxf.reset with win := 0x0D67FF, wfill := 23 }))).map (·.rx.st) = some .header ∧
    (after (exec (.rxbit true) (withRx { Rxf.reset with win := 0x0D67FD, wfill := 24 }))).map (·.rx.st) = some .searching ∧
    (after (exec (.rxbit false) (withRx { Rxf.reset with win := 0x0D67FE, wfill := 22 }))).map (·.rx.st) =
      some .searching := by decide

theorem witness_BitInsideGroupOnlyShifts :
    (inHeader 0 0 0 0 0).st = .header ∧ ((inHeader 0 0 0 0 0).bitcnt.toNat + 1) % 7 ≠ 0 ∧
    (inPayload 3568 0 0 255 []).st = .payload ∧ ((inPayload 3568 0 0 255 []).bitcnt.toNat + 1) % 7 ≠ 0 := by decide

/-- An even group, an odd group, and the last one with `payload_length` 0 and 1. -/
theorem witness_HeaderGroupCompletes :
    (after (exec (.rxbit true) (withRx (inHeader 6 0x0A 0 0 0)))).map (·.rx.hi) = some 0x2 ∧
    (after (exec (.rxbit true) (withRx (inHeader 13 0x0A 0 0 0)))).map (·.rx.hdr.plen) = some 0x02 ∧
    (after (exec (.rxbit false) (withRx (inHeader 55 0 0 0 0)))).map (fun t => (t.rx.st, t.stat.nHeaderCorrupt)) =
      some (.searching, 1) ∧
    (after (exec (.rxbit false) (withRx (inHeader 55 0 0 1 0)))).map (fun t => (t.rx.st, t.stat.nHeaderCorrupt)) =
      some (.payload, 0) := by decide

/-- The groups of V20's byte `0x48`, and the last group of the longest payload. -/
theorem witness_PayloadGroupCompletes :
    (after (exec (.rxbit false) (withRx (inPayload 6 0x13 0 1 [])))).map (·.rx.hi) = some 0x4 ∧
    (after (exec (.rxbit true) (withRx (inPayload 13 0x23 0x4 2 [])))).map (fun t => (t.rx.st, t.rx.rxbuf)) =
      some (.payload, [(0, 0x48)]) ∧
    (after (exec (.rxbit true) (withRx (inPayload 3569 0x23 0x4 255 [])))).map (fun t => (t.rx.st, t.rx.rxbuf)) =
      some (.endCheck, [(254, 0x48)]) := by decide

/-- The seventh bit; the eighth at distance 1 and 2 from `END_MARKER`, the first of them with the greatest `corr`. -/
theorem witness_EndCheckEmitsOrDiscards :
    (after (exec (.rxbit false) (withRx (inEndCheck 6 0x07 2 payloadV20)))).map (·.rx.bitcnt) = some 7 ∧
    (after (exec (.rxbit false) (withRx { inEndCheck 7 0x0E 2 payloadV20 with corr := 518 }))).map (·.stat.hist) =
      some [(518, 1)] ∧
    (after (exec (.rxbit false) (withRx (inEndCheck 7 0x0F 2 payloadV20)))).map (·.stat.nEndMismatch) = some 1 ∧
    ([0x48, 0x69] : List Byte).length = (inEndCheck 7 0x0E 2 payloadV20).hdr.plen.toNat ∧
    (∀ i, i < 2 → payloadV20.get? i = ([0x48, 0x69] : List Byte)[i]?) := by decide

theorem witness_RxbitTakesEveryBit :
    (∃ s pkt, Inv s ∧ eventOf (.rxbit true) s = some (.packetEmitted pkt)) ∧
    (∃ s, Inv s ∧ eventOf (.rxbit true) s = none) := ⟨⟨_, _, inv_inEndCheck, rfl⟩, _, inv_inHeader, rfl⟩

theorem witness_RxbitFrame :
    (∃ t, exec (.rxbit true) State.reset = .next t) ∧
    (∃ t, exec (.rxbit false) (withRx (inHeader 55 0 0 0 0)) = .next t) ∧
    (∃ t, exec (.rxbit true) (withRx (inPayload 13 0x23 0x4 2 [])) = .next t) ∧
    (∃ t, exec (.rxbit true) (withRx (inEndCheck 7 0x0E 2 payloadV20)) = .next t) :=
  ⟨⟨_, rfl⟩, ⟨_, rfl⟩, ⟨_, rfl⟩, ⟨_, rfl⟩⟩

theorem witness_RxbitStopsOutOfReach :
    faultOf (exec (.rxbit true) { withRx (inHeader 6 0x03 0 0 0) with cfg := cfgTwinColumns }) = some .cfgIllFormed ∧
    faultOf (exec (.rxbit false) (withRx (inHeader 69 0 0 0 0))) = some .outsideStore ∧
    faultOf (exec (.rxbit false) (withRx (inPayload 3583 0 0 255 []))) = some .outsideStore ∧
    faultOf (exec (.rxbit true) (withRx (inEndCheck 7 0x0E 2 []))) = some .unwrittenByte ∧
    faultOf (exec (.rxbit true) (withRx { inEndCheck 7 0x0E 2 payloadV20 with corr := 519 })) = some .outsideStore ∧
    faultOf (exec (.rxbit true) (withRx { inEndCheck 7 0x0E 2 payloadV20 with corr := 518 })) = none ∧
    faultOf (exec (.rxbit false) (withRx (inHeader 55 0 0 1 0))) = none ∧
    faultOf (exec (.rxbit false) (withRx (inPayload 3569 0 0 255 []))) = none := by decide

/-- Each transition of R22 happens. -/
theorem witness_StateTagTransitions :
    (after (exec (.rxbit false) (withRx { Rxf.reset with win := 0x0D67FE, wfill := 23 }))).map (·.rx.st) = some .header ∧
    (after (exec (.rxbit false) (withRx (inHeader 55 0 0 1 0)))).map (·.rx.st) = some .payload ∧
    (after (exec (.rxbit true) (withRx (inPayload 13 0x23 0x4 1 [])))).map (·.rx.st) = some .endCheck ∧
    (after (exec (.rxbit true) (withRx (inEndCheck 7 0x0E 2 payloadV20)))).map (·.rx.st) = some .searching ∧
    (after (exec .rxrst (withRx (inHeader 20 0x40 0 2 0)))).map (·.rx.st) = some .searching := by decide

theorem witness_EventsOnlyAtPacketEnds :
    (after (exec (.rxbit false) (withRx (inHeader 55 0 0 0 0)))).map (·.stat.nHeaderCorrupt) = some 1 ∧
    (after (exec (.rxbit true) (withRx (inEndCheck 7 0x0E 2 payloadV20)))).map (·.stat.nEmitted) = some 1 ∧
    (after (exec (.rxbit false) (withRx (inEndCheck 7 0x0F 2 payloadV20)))).map (·.stat.nEndMismatch) = some 1 := by decide

theorem witness_BlindSpanEnds :
    ∃ (s : State) (bs : Bits), Inv s ∧ s.rx.st ≠ .searching ∧ bs.length = 3634 :=
  ⟨_, List.replicate 3634 true, inv_inHeader, by decide, List.length_replicate⟩

theorem witness_BuiltPacketIsReceived :
    State.reset.cfg.wf = true ∧ rxClear State.reset.rx = State.reset.rx ∧ ([0x48] : List Byte).length = 1 ∧
    longMessage.length = 255 := ⟨by decide, rfl, rfl, List.length_replicate⟩

/-- V20 with two wrong bits in the synchronisation pattern, one in the second group and one in the end marker. -/
theorem witness_DamagedPacketIsReceived :
    ∃ sent rcvd : Bits, State.reset.cfg.wf = true ∧ rxClear State.reset.rx = State.reset.rx ∧
      build State.reset.cfg [0x48, 0x69] 1 = .ok sent ∧ rcvd.length = sent.length ∧
      bitsApart (slice rcvd 0 24) (slice sent 0 24) = State.reset.cfg.syncTol ∧
      (∀ k, k < 8 + 2 * 2 → bitsApart (slice rcvd (24 + 7 * k) 7) (slice sent (24 + 7 * k) 7) ≤ 1) ∧
      bitsApart (slice rcvd (80 + 14 * 2) 8) (slice sent (80 + 14 * 2) 8) = 1 :=
  ⟨_, msbBits ((0x1ACFFC005400B00000004D1D9CC1D : BitVec 116) ^^^ 0xC000000200000000000000000001), by decide, rfl, rfl,
    by decide +kernel, by decide +kernel, by decide +kernel, by decide +kernel⟩

theorem witness_PacketAfterRxrstIsReceived : cfg0.wf = true ∧ ∃ bits, build cfg0 [0x48] 1 = .ok bits := ⟨by decide, _, rfl⟩

/-- P3, steps 1 and 2: the noise `0xB2E5` before the packet `A`. -/
theorem witness_NoiseThenPacketIsReceived :
    ∃ noise bits : Bits, noise.length = 16 ∧ build cfg0 [0x4F, 0x4B] 0x07 = .ok bits ∧
      ∀ p, p < noise.length → cfg0.syncTol < bitsApart (slice (noise ++ bits) p 24) (msbBits cfg0.preamble ++ msbBits cfg0.startMarker) :=
  ⟨msbBits (0xB2E5 : BitVec 16), _, rfl, rfl, by decide +kernel⟩

theorem witness_SyncPatternStandsApart :
    (0x0D67FE : BitVec 24) &&& BitVec.ofNat 24 (2 ^ 23 - 1) = sync24 cfg0 >>> 1 ∧
    (0x000001 : BitVec 24) &&& BitVec.ofNat 24 (2 ^ 4 - 1) = sync24 cfg0 >>> 20 := by decide

/-- A stale byte beyond the one byte written so far. -/
theorem witness_StaleRxbufNeverShows :
    (∀ a, a < bytesDone (inPayload 27 0 0 3 payloadV20) → Memory.get? [(0, 0x48)] a = payloadV20.get? a) ∧
    ∃ t, exec (.rxbit true) (withRx (inPayload 27 0 0 3 payloadV20)) = .next t := ⟨by decide, _, rfl⟩

theorem witness_StoredByteReadsBack : 254 < 255 ∧ 255 ≤ 255 ∧ Memory.wf payloadV20 = true := by decide

theorem witness_TransmitAndReceiveIndependent :
    (∃ t, exec (.txput 1) (withRx (inHeader 20 0x40 0 2 0)) = .next t) ∧ ∃ t, exec (.rxbit true) (withTx 2 payloadV20) = .next t :=
  ⟨⟨_, rfl⟩, _, rfl⟩

/-- Two SNAP with a TXPUT and an RXRST between them. -/
theorem witness_SnapCopiesTheCounters :
    (∀ b, Instr.rxbit b ∉ [Instr.txput 1, Instr.rxrst]) ∧
    ∃ t, execAll ([Instr.snap] ++ [Instr.txput 1, Instr.rxrst] ++ [Instr.snap]) State.reset = .next t :=
  ⟨by decide, _, rfl⟩

theorem witness_RecordCountsOneEvent : (DecodedPacket.mk 1 [0x48] 518 false).correctedBitCount ≤ 518 := by decide

theorem witness_OnlyEventsMoveCounters :
    (∃ ev, eventOf (.rxbit true) (withRx (inEndCheck 7 0x0E 2 payloadV20)) = some ev) ∧
    eventOf .rxrst (withRx (inEndCheck 7 0x0E 2 payloadV20)) = none ∧
    (State.reset.withFetchWord 16 0x9000).cmds = [0x9000] ∧ decode 0x9000 = .error .reservedOpcode :=
  ⟨⟨_, rfl⟩, rfl, rfl, by decide⟩

theorem witness_CountersNeverSteerTheDevice :
    ∃ t, exec (.rxbit true) (withRx (inEndCheck 7 0x0E 2 payloadV20)) = .next t ∧ Instr.rxbit true ≠ .snap :=
  ⟨_, rfl, by decide⟩

theorem witness_CountersAddUp :
    cfg0.wf = true ∧ Reachable cfg0 State.reset ∧ (∃ t, step State.reset = .next t) ∧
    ∃ t, exec (.rxbit true) (withRx (inEndCheck 7 0x0E 2 payloadV20)) = .next t :=
  ⟨by decide, .reset, ⟨_, rfl⟩, _, rfl⟩

theorem witness_AssemblerOperandsMustFit :
    (AsmLine.command "RXBIT" (some 1)).wf = true ∧ (AsmLine.command "RXBIT" (some 2)).wf = false ∧
    (AsmLine.command "DEC" (some 127)).wf = true ∧ (AsmLine.command "DEC" (some 128)).wf = false ∧
    (AsmLine.command "TXPUT" (some 255)).wf = true ∧ (AsmLine.command "TXBUILD" (some 256)).wf = false := by decide

end Sys2Proof.Tests
end

section
/-! PROOFS. The scope of the device (spec/00_scope.md R7, R9): what a step runs, and what no step writes. -/

namespace Sys2Proof.Machine

/-- R7, R61: the step on a legal word; the equation beside `step_next` that also covers a command that stops. -/
theorem step_of_decode {s : State} {w : Word} {rest : List Word} {i : Instr} (hc : s.cmds = w :: rest) (hd : decode w = .ok i) :
    step s = exec i { s with cmds := rest } := by
  simp only [step, hc, hd]

/-- R9, R21: the frame of `cfg`, along the three ways a step can go on. -/
theorem step_keeps_cfg {s t : State} (h : step s = .next t) : t.cfg = s.cfg := by
  obtain ⟨-, rfl⟩ | ⟨w, rest, -, ⟨i, -, hexec⟩ | ⟨e, -, rfl⟩⟩ := (step_next s t).mp h
  · rfl
  · exact (exec_keeps_cfg_cmds hexec).left
  · rfl

end Sys2Proof.Machine

namespace Sys2Proof.Proofs

open Sys2Proof.Machine

/-- Settles O12: waiting and an illegal word write only the commands to come and the response, and no command writes `cfg`. -/
theorem noStepWritesCfg : Obligations.NoStepWritesCfg := fun _ _ h => step_keeps_cfg h

/-- Settles O9, by the equation of a step on a legal word. -/
theorem stepRunsDecodedCommand : Obligations.StepRunsDecodedCommand := fun _ _ _ _ hc hd => step_of_decode hc hd

end Sys2Proof.Proofs
end

section
/-! PROOFS. The state (spec/10_state.md), first part: what a completed group keeps of the receiver's registers, and the invariant
of R37 after each operation of the receive framer (R145 to R158). -/

namespace Sys2Proof.Machine

/-! ### What a group keeps (R145, R152 to R155) -/

/-- A group writes none of the registers that steer the state machine, and `unc` stays (R110). -/
theorem completeGroup_keeps {c : Cfg} {r r' : Rxf} {n : Nat} (h : completeGroup c r n = .ok r') :
    r'.st = r.st ∧ r'.win = r.win ∧ r'.wfill = r.wfill ∧ r'.sh = r.sh ∧ r'.bitcnt = r.bitcnt ∧ r'.unc = r.unc := by
  obtain ⟨-, rfl⟩ | ⟨-, d, -, ⟨-, rfl⟩ | ⟨-, -, hdr, -, rfl⟩ | ⟨-, -, -, rfl⟩⟩ := completeGroup_ok h <;>
    exact ⟨rfl, rfl, rfl, rfl, rfl, rfl⟩

/-- In `HEADER` a group leaves `RXBUF` alone (R153). -/
theorem completeGroup_header_rxbuf {c : Cfg} {r r' : Rxf} {n : Nat} (h : completeGroup c r n = .ok r')
    (hst : r.st = .header) : r'.rxbuf = r.rxbuf := by
  obtain ⟨-, rfl⟩ | ⟨-, d, -, ⟨-, rfl⟩ | ⟨-, -, hdr, -, rfl⟩ | ⟨-, hne, -⟩⟩ := completeGroup_ok h
  · rfl
  · rfl
  · rfl
  · exact absurd hst hne

/-- In `PAYLOAD` a group leaves the header bytes alone (R155). -/
theorem completeGroup_payload_hdr {c : Cfg} {r r' : Rxf} {n : Nat} (h : completeGroup c r n = .ok r')
    (hst : r.st = .payload) : r'.hdr = r.hdr := by
  obtain ⟨-, rfl⟩ | ⟨-, d, -, ⟨-, rfl⟩ | ⟨-, hh, -⟩ | ⟨-, -, -, rfl⟩⟩ := completeGroup_ok h
  · rfl
  · rfl
  · exact absurd (hst.symm.trans hh) (by decide)
  · rfl

/-- R50: a group keeps the canonical form of `RXBUF`. -/
theorem completeGroup_keeps_rxbuf_wf {c : Cfg} {r r' : Rxf} {n : Nat} (h : completeGroup c r n = .ok r')
    (hw : r.rxbuf.wf = true) : r'.rxbuf.wf = true := by
  obtain ⟨-, rfl⟩ | ⟨-, d, -, ⟨-, rfl⟩ | ⟨-, -, hdr, -, rfl⟩ | ⟨-, -, hi, rfl⟩⟩ := completeGroup_ok h
  · exact hw
  · exact hw
  · exact hw
  · exact Memory.store_keeps_wf (Memory.store_of_lt _ _ hi) hw

/-- R37 (d): `corr` stays within the number of groups completed, `g` of them before the state was entered. -/
theorem completeGroup_corr_le {c : Cfg} {r r' : Rxf} {k g : Nat} (h : completeGroup c r (k + 1) = .ok r')
    (hr : r.corr.toNat ≤ g + k / 7) (hg : g + k / 7 + 1 < 1024) : r'.corr.toNat ≤ g + (k + 1) / 7 := by
  have hadd : ∀ d, (k + 1) % 7 = 0 → (addCorrected r.corr d).toNat ≤ g + (k + 1) / 7 := fun d h7 => by
    have hone := Bool.toNat_le d.corrected
    rw [addCorrected_toNat (by omega)]
    omega
  obtain ⟨-, rfl⟩ | ⟨h7, d, -, ⟨-, rfl⟩ | ⟨-, -, hdr, -, rfl⟩ | ⟨-, -, -, rfl⟩⟩ := completeGroup_ok h
  · omega
  · exact hadd d h7
  · exact hadd d h7
  · exact hadd d h7

/-- R31: in `PAYLOAD` bit `k` leaves the bytes completed so far written, the one it completes among them. -/
theorem completeGroup_payload_written {c : Cfg} {r r' : Rxf} {k : Nat} (h : completeGroup c r (k + 1) = .ok r')
    (hst : r.st = .payload) (hr : ∀ i, i < k / 14 → (r.rxbuf.get? i).isSome = true) {i : Nat} (hi : i < (k + 1) / 14) :
    (r'.rxbuf.get? i).isSome = true := by
  obtain ⟨h7, rfl⟩ | ⟨h7, d, -, ⟨h2, rfl⟩ | ⟨-, hh, -⟩ | ⟨-, -, -, rfl⟩⟩ := completeGroup_ok h
  · exact hr i (by omega)
  · exact hr i (by omega)
  · exact absurd (hst.symm.trans hh) (by decide)
  · simp only [Memory.get?_set]
    split
    · rfl
    · exact hr i (by omega)

/-! ### The invariant of the receiver (R37) -/

/-- R26: the mask of R151 clears `sh[7]`. -/
theorem shiftGroup_sh_top (r : Rxf) (b : Bool) : (shiftGroup r b).sh.getLsbD 7 = false := by
  rw [shiftGroup_sh, BitVec.getLsbD_and, show (0x7F : BitVec 8).getLsbD 7 = false by decide, Bool.and_false]

/-- A cleared receiver meets the invariant. -/
theorem rxInv_rxClear {r : Rxf} (h : r.rxbuf.wf = true) : RxInv (rxClear r) where
  searching_clear _ := ⟨rfl, rfl, rfl, rfl, rfl, rfl⟩
  window_clear hne := absurd rfl hne
  length_valid := by simp
  corr_le := Nat.zero_le _
  unc_clear := rfl
  bitcnt_lt := Nat.one_pos
  wfill_le := Nat.zero_le _
  sh_top_clear := by simp
  rxbuf_wf := h
  rxbuf_written _ hi := absurd hi (Nat.not_lt_zero _)

/-- R149: a receiver that has just found the synchronisation pattern meets the invariant. -/
theorem rxInv_headerStart {r : Rxf} (h : r.rxbuf.wf = true) : RxInv { rxClear r with st := .header } where
  searching_clear := nofun
  window_clear _ := ⟨rfl, rfl⟩
  length_valid := by simp
  corr_le := Nat.zero_le _
  unc_clear := rfl
  bitcnt_lt := show 0 < 56 by decide
  wfill_le := Nat.zero_le _
  sh_top_clear _ := by simp
  rxbuf_wf := h
  rxbuf_written _ hi := absurd hi (Nat.not_lt_zero _)

/-- R148 to R150: a bit in `SEARCHING` moves the window or enters `HEADER`. -/
theorem searchBit_keeps_inv {c : Cfg} {r : Rxf} (b : Bool) (hst : r.st = .searching) (h : RxInv r) :
    RxInv (searchBit c r b) := by
  unfold searchBit
  split
  · exact rxInv_headerStart h.rxbuf_wf
  · have hfill : (BitVec.ofNat 5 (fillNext r)).toNat ≤ 24 :=
      Nat.le_trans (Nat.mod_le _ _) (Nat.min_le_right _ _)
    exact { h with
      window_clear := fun hne => absurd hst hne
      wfill_le := hfill
      corr_le := h.corr_le
      bitcnt_lt := h.bitcnt_lt
      rxbuf_written := h.rxbuf_written }

/-- What the group of a bit in `HEADER` or `PAYLOAD` leaves true, before the test at the end of the state. -/
theorem completeGroup_shiftGroup_inv {c : Cfg} {r q : Rxf} {b : Bool} {n : Nat} (h : RxInv r) (hst : r.st ≠ .searching)
    (hq : completeGroup c (shiftGroup r b) n = .ok q) :
    q.st = r.st ∧ (q.win = 0 ∧ q.wfill = 0) ∧ q.sh.getLsbD 7 = false ∧ q.bitcnt = r.bitcnt + 1 ∧ q.unc = false ∧
      q.rxbuf.wf = true := by
  obtain ⟨qst, qwin, qwfill, qsh, qbit, qunc⟩ := completeGroup_keeps hq
  obtain ⟨hwin, hwfill⟩ := h.window_clear hst
  exact ⟨qst, ⟨qwin.trans hwin, qwfill.trans hwfill⟩, qsh ▸ shiftGroup_sh_top r b, qbit, qunc.trans h.unc_clear,
    completeGroup_keeps_rxbuf_wf hq h.rxbuf_wf⟩

/-- R151 to R154: a bit in `HEADER` stays there, enters `PAYLOAD` with a valid length, or clears the receiver. -/
theorem headerBit_keeps_inv {c : Cfg} {r r' : Rxf} {b : Bool} {ev : Option Event} (hst : r.st = .header) (h : RxInv r)
    (hb : groupBit headerEnd c r b = .ok (r', ev)) : RxInv r' := by
  obtain ⟨q, hq, hfin⟩ := groupBit_ok hb
  obtain ⟨qst, qwin, qsh, qbit, qunc, qwf⟩ := completeGroup_shiftGroup_inv h (by simp [hst]) hq
  rw [hst] at qst
  have hbit : r.bitcnt.toNat < 56 := by simpa [bitLimit, hst] using h.bitcnt_lt
  have hcorr : r.corr.toNat ≤ 0 + r.bitcnt.toNat / 7 := by simpa [groupsDone, hst] using h.corr_le
  have qcorr := completeGroup_corr_le hq hcorr (by omega)
  have qbitNat : q.bitcnt.toNat = r.bitcnt.toNat + 1 := by rw [qbit, bitcnt_succ (by omega)]
  obtain ⟨hne, he⟩ | ⟨-, -, he⟩ | ⟨h56, hlen, he⟩ := headerEnd_cases q (r.bitcnt.toNat + 1) <;>
    obtain ⟨rfl, -⟩ := Prod.mk.inj (hfin.trans he)
  · exact {
      searching_clear := by simp [qst]
      window_clear := fun _ => qwin
      length_valid := by simp [qst]
      corr_le := by simp only [groupsDone, qst, qbitNat]; omega
      unc_clear := qunc
      bitcnt_lt := by simp only [bitLimit, qst, qbitNat]; omega
      wfill_le := by simp [qwin]
      sh_top_clear := fun _ => qsh
      rxbuf_wf := qwf
      rxbuf_written := by simp [bytesDone, qst] }
  · exact rxInv_rxClear qwf
  · have hpos : 1 ≤ q.hdr.plen.toNat := by bv_omega
    exact {
      searching_clear := nofun
      window_clear := fun _ => qwin
      length_valid := fun _ => hpos
      corr_le := by simp only [groupsDone]; omega
      unc_clear := qunc
      bitcnt_lt := show 0 < 14 * q.hdr.plen.toNat by omega
      wfill_le := by simp [qwin]
      sh_top_clear := by simp
      rxbuf_wf := qwf
      rxbuf_written := by simp [bytesDone] }

/-- R151, R152, R155, R156: a bit in `PAYLOAD` stays there or enters `END_CHECK` with every byte of the payload written. -/
theorem payloadBit_keeps_inv {c : Cfg} {r r' : Rxf} {b : Bool} {ev : Option Event} (hst : r.st = .payload) (h : RxInv r)
    (hb : groupBit payloadEnd c r b = .ok (r', ev)) : RxInv r' := by
  obtain ⟨q, hq, hfin⟩ := groupBit_ok hb
  obtain ⟨qst, qwin, qsh, qbit, qunc, qwf⟩ := completeGroup_shiftGroup_inv h (by simp [hst]) hq
  rw [hst] at qst
  have qhdr : q.hdr = r.hdr := by rw [completeGroup_payload_hdr hq hst, shiftGroup_hdr]
  have hlen : 1 ≤ q.hdr.plen.toNat := by rw [qhdr]; exact h.length_valid (.inl hst)
  have hmax := q.hdr.plen.isLt
  have hbit : r.bitcnt.toNat < 14 * q.hdr.plen.toNat := by simpa [bitLimit, hst, qhdr] using h.bitcnt_lt
  have hcorr : r.corr.toNat ≤ 8 + r.bitcnt.toNat / 7 := by simpa [groupsDone, hst] using h.corr_le
  have hwritten : ∀ i, i < r.bitcnt.toNat / 14 → (r.rxbuf.get? i).isSome = true := by
    simpa [bytesDone, hst] using h.rxbuf_written
  have qcorr := completeGroup_corr_le hq hcorr (by omega)
  have qwritten := fun i => completeGroup_payload_written (i := i) hq hst hwritten
  have qbitNat : q.bitcnt.toNat = r.bitcnt.toNat + 1 := by rw [qbit, bitcnt_succ (by omega)]
  obtain ⟨hne, he⟩ | ⟨hend, he⟩ := payloadEnd_cases q (r.bitcnt.toNat + 1) <;>
    obtain ⟨rfl, -⟩ := Prod.mk.inj (hfin.trans he)
  · exact {
      searching_clear := by simp [qst]
      window_clear := fun _ => qwin
      length_valid := fun _ => hlen
      corr_le := by simp only [groupsDone, qst, qbitNat]; exact qcorr
      unc_clear := qunc
      bitcnt_lt := by simp only [bitLimit, qst, qbitNat]; omega
      wfill_le := by simp [qwin]
      sh_top_clear := fun _ => qsh
      rxbuf_wf := qwf
      rxbuf_written := by simp only [bytesDone, qst, qbitNat]; exact qwritten }
  · exact {
      searching_clear := nofun
      window_clear := fun _ => qwin
      length_valid := fun _ => hlen
      corr_le := by simp only [groupsDone]; omega
      unc_clear := qunc
      bitcnt_lt := show 0 < 8 by decide
      wfill_le := by simp [qwin]
      sh_top_clear := by simp
      rxbuf_wf := qwf
      rxbuf_written := fun i hi => qwritten i (by simp only [bytesDone] at hi; omega) }

/-- R157, R158: a bit in `END_CHECK` is collected or clears the receiver. -/
theorem endBit_keeps_inv {c : Cfg} {r r' : Rxf} {b : Bool} {ev : Option Event} (hst : r.st = .endCheck) (h : RxInv r)
    (hb : endBit c r b = .ok (r', ev)) : RxInv r' := by
  have hbit : r.bitcnt.toNat < 8 := by simpa [bitLimit, hst] using h.bitcnt_lt
  obtain ⟨h8, he⟩ | ⟨-, -, payload, -, he⟩ | ⟨-, -, he⟩ := endBit_ok hb <;> obtain ⟨rfl, rfl⟩ := Prod.mk.inj he
  · have hn : (r.bitcnt + 1).toNat < 8 := by rw [bitcnt_succ (by omega)]; omega
    exact { h with
      searching_clear := by simp [hst]
      corr_le := by simpa [groupsDone, hst] using h.corr_le
      bitcnt_lt := by simpa [bitLimit, hst] using hn
      sh_top_clear := by simp [hst]
      rxbuf_written := by simpa [bytesDone, hst] using h.rxbuf_written }
  · exact rxInv_rxClear h.rxbuf_wf
  · exact rxInv_rxClear h.rxbuf_wf

/-- R147: every received bit keeps the invariant of the receiver. -/
theorem rxStep_keeps_inv {c : Cfg} {r r' : Rxf} {b : Bool} {ev : Option Event} (h : RxInv r)
    (hs : rxStep c r b = .ok (r', ev)) : RxInv r' := by
  cases hst : r.st with
  | searching =>
    rw [rxStep_searching hst] at hs
    obtain ⟨rfl, -⟩ := Prod.mk.inj (Except.ok.inj hs)
    exact searchBit_keeps_inv b hst h
  | header => exact headerBit_keeps_inv hst h (rxStep_header hst b ▸ hs)
  | payload => exact payloadBit_keeps_inv hst h (rxStep_payload hst b ▸ hs)
  | endCheck => exact endBit_keeps_inv hst h (rxStep_endCheck hst b ▸ hs)

end Sys2Proof.Machine
end

section
/-! PROOFS. The state, second part: the invariant of the whole device (R37, R185) at hard reset, along every step and in every
reachable state. -/

namespace Sys2Proof.Machine

/-! ### Staging (R37 (f), R33) -/

/-- Empty staging meets the invariant whatever `TXBUF` holds. -/
theorem txInv_empty {m : Memory} (h : m.wf = true) : TxInv { txlen := 0, txbuf := m } :=
  ⟨Nat.zero_le _, h, fun _ hi => absurd hi (Nat.not_lt_zero _)⟩

/-- R121, R126: clearing the staging registers keeps the invariant. -/
theorem txInv_clearStaging {s : State} (h : TxInv s.tx) : TxInv (clearStaging s).tx := txInv_empty h.txbuf_wf

/-- R122: a staged byte is the one the longer message has more. -/
theorem txInv_put {x : Txf} (v : Byte) (h : TxInv x) (hlen : x.txlen.toNat ≤ 254) :
    TxInv { txlen := x.txlen + 1, txbuf := Cells.set x.txbuf x.txlen.toNat v } := by
  have hsucc : (x.txlen + 1).toNat = x.txlen.toNat + 1 := by bv_omega
  have hroom : x.txlen.toNat < bufBytes := by simp only [bufBytes]; omega
  refine ⟨by simp only [hsucc]; omega, Memory.store_keeps_wf (Memory.store_of_lt _ v hroom) h.txbuf_wf, fun i hi hbuf => ?_⟩
  simp only [hsucc] at hi
  simp only [Memory.get?_set]
  split
  · rfl
  · exact h.txbuf_written i (by omega) hbuf

/-- R122: a refused byte leaves all 255 bytes of `TXBUF` written. -/
theorem txInv_overflow {x : Txf} (h : TxInv x) (hlen : 254 < x.txlen.toNat) : TxInv { x with txlen := 256 } :=
  ⟨Nat.le_refl _, h.txbuf_wf, fun i _ hbuf => h.txbuf_written i (by simp only [bufBytes] at hbuf; omega) hbuf⟩

/-! ### The counters (R185) -/

theorem histTotal_nil : histTotal [] = 0 := by
  have hzero : Hist.count [] = fun _ => 0 := funext Hist.count_nil
  simp only [histTotal, hzero, List.map_const', List.sum_replicate, smul_zero]

theorem histWeighted_nil : histWeighted [] = 0 := by
  simp only [histWeighted, Hist.count_nil, Nat.mul_zero, List.map_const', List.sum_replicate, smul_zero]

/-- R185: an emission adds 1 to both sides of the first sum and the packet's count to both sides of the second; any other event
leaves the histogram and both sums alone. -/
theorem record_keeps_statInv {ev : Event} {t u : Stat} (h : StatInv t) (hr : record ev t = .ok u) : StatInv u := by
  cases ev with
  | packetEmitted pkt =>
    simp only [record] at hr
    cases hb : t.hist.bump pkt.correctedBitCount with
    | error f => simp [hb] at hr
    | ok h' =>
      rw [hb] at hr
      obtain rfl := Except.ok.inj hr
      exact {
        hist_wf := Hist.bump_keeps_wf hb h.hist_wf
        emitted_sum := by rw [histTotal_bump hb, h.emitted_sum]
        corrected_sum := by rw [histWeighted_bump hb, h.corrected_sum] }
  | headerCorrupt =>
    obtain rfl := Except.ok.inj hr
    exact ⟨h.hist_wf, h.emitted_sum, h.corrected_sum⟩
  | endMarkerMismatch =>
    obtain rfl := Except.ok.inj hr
    exact ⟨h.hist_wf, h.emitted_sum, h.corrected_sum⟩

/-! ### The device -/

/-- R220: the invariant right after hard reset, whatever the host has still to issue. -/
theorem inv_resetWith {c : Cfg} (h : c.wf = true) : Inv (State.resetWith c) where
  cfg_wf := h
  rx := rxInv_rxClear (r := Rxf.reset) Memory.wf_nil
  tx := txInv_empty Memory.wf_nil
  stat := ⟨rfl, histTotal_nil.symm, histWeighted_nil.symm⟩

/-- The commands to come and the last response are no part of the invariant (R21). -/
theorem Inv.with_cmds_resp {s : State} (h : Inv s) (ws : List Word) (v : Option Response) :
    Inv { s with cmds := ws, resp := v } :=
  ⟨h.cfg_wf, h.rx, h.tx, h.stat⟩

/-- The block of registers each command writes meets its part of the invariant again. -/
theorem exec_keeps_inv {i : Instr} {s t : State} (h : Inv s) (hx : exec i s = .next t) : Inv t := by
  cases i with
  | nop => exact ((execNop_next s t).mp hx) ▸ h.with_cmds_resp _ _
  | enc n => exact ((execEnc_next n s t).mp hx) ▸ h.with_cmds_resp _ _
  | dec c =>
    obtain ⟨d, -, rfl⟩ := (execDec_next c s t).mp hx
    exact h.with_cmds_resp _ _
  | rxbit b =>
    obtain ⟨r, hr, rfl⟩ | ⟨r, ev, u, hr, hu, rfl⟩ := (execRxbit_next b s t).mp hx
    · exact ⟨h.cfg_wf, rxStep_keeps_inv h.rx hr, h.tx, h.stat⟩
    · exact ⟨h.cfg_wf, rxStep_keeps_inv h.rx hr, h.tx, record_keeps_statInv h.stat hu⟩
  | rxrst =>
    obtain rfl := (execRxrst_next s t).mp hx
    exact ⟨h.cfg_wf, rxInv_rxClear h.rx.rxbuf_wf, h.tx, h.stat⟩
  | txput v =>
    obtain ⟨hlen, rfl⟩ | ⟨hlen, rfl⟩ := (execTxput_next v s t).mp hx
    · exact ⟨h.cfg_wf, h.rx, txInv_put v h.tx hlen, h.stat⟩
    · exact ⟨h.cfg_wf, h.rx, txInv_overflow h.tx hlen, h.stat⟩
  | txbuild q =>
    obtain ⟨-, rfl⟩ | ⟨-, _, -, ⟨_, -, rfl⟩ | ⟨_, -, rfl⟩⟩ := (execTxbuild_next q s t).mp hx <;>
      exact ⟨h.cfg_wf, h.rx, txInv_clearStaging h.tx, h.stat⟩
  | txclr =>
    obtain rfl := (execTxclr_next s t).mp hx
    exact ⟨h.cfg_wf, h.rx, txInv_clearStaging h.tx, h.stat⟩
  | snap => exact ((execSnap_next s t).mp hx) ▸ h.with_cmds_resp _ _

/-- Waiting and an illegal word touch no register, and every command keeps the invariant. -/
theorem step_keeps_inv {s t : State} (h : Inv s) (hs : step s = .next t) : Inv t := by
  obtain ⟨-, rfl⟩ | ⟨w, rest, -, ⟨i, -, hx⟩ | ⟨e, -, rfl⟩⟩ := (step_next s t).mp hs
  · exact h.with_cmds_resp _ _
  · exact exec_keeps_inv (h.with_cmds_resp rest s.resp) hx
  · exact h.with_cmds_resp _ _

/-- The invariant holds in every state a device with a well-formed `cfg` can be in. -/
theorem inv_of_reachable {c : Cfg} {s : State} (hc : c.wf = true) (h : Reachable c s) : Inv s := by
  induction h with
  | reset => exact inv_resetWith hc
  | issue ws _ ih => exact ih.with_cmds_resp ws _
  | step _ hs ih => exact step_keeps_inv ih hs
  | hardReset _ ih => exact (inv_resetWith ih.cfg_wf).with_cmds_resp _ _

/-! ### The end of a packet (R146) -/

/-- R154, R157, R158: a bit with an event leaves the receiver cleared. -/
theorem rxStep_event_clears {c : Cfg} {r r' : Rxf} {b : Bool} {ev : Event} (h : rxStep c r b = .ok (r', some ev)) :
    rxClear r' = r' := by
  cases hst : r.st with
  | searching =>
    rw [rxStep_searching hst] at h
    exact absurd (Prod.mk.inj (Except.ok.inj h)).2 nofun
  | header =>
    obtain ⟨q, -, hfin⟩ := groupBit_ok (rxStep_header hst b ▸ h)
    obtain ⟨-, he⟩ | ⟨-, -, he⟩ | ⟨-, -, he⟩ := headerEnd_cases q (r.bitcnt.toNat + 1) <;>
      obtain ⟨rfl, hev⟩ := Prod.mk.inj (hfin.trans he)
    · exact absurd hev nofun
    · rfl
    · exact absurd hev nofun
  | payload =>
    obtain ⟨q, -, hfin⟩ := groupBit_ok (rxStep_payload hst b ▸ h)
    obtain ⟨-, he⟩ | ⟨-, he⟩ := payloadEnd_cases q (r.bitcnt.toNat + 1) <;>
      exact absurd (Prod.mk.inj (hfin.trans he)).2 nofun
  | endCheck =>
    obtain ⟨-, he⟩ | ⟨-, -, payload, -, he⟩ | ⟨-, -, he⟩ := endBit_ok (rxStep_endCheck hst b ▸ h) <;>
      obtain ⟨rfl, hev⟩ := Prod.mk.inj he
    · exact absurd hev nofun
    · rfl
    · rfl

/-- The event of an `RXBIT` is the event of the receive framer's step. -/
theorem eventOf_rxbit_eq_some {b : Bool} {s : State} {ev : Event} :
    eventOf (.rxbit b) s = some ev ↔ ∃ r, rxStep s.cfg s.rx b = .ok (r, some ev) := by
  simp only [eventOf]
  cases rxStep s.cfg s.rx b with
  | error f => simp
  | ok p => obtain ⟨r, e⟩ := p; simp

/-- R146: an `RXBIT` with an event ends in the hard-reset value of every register of `RXF` but `RXBUF`. -/
theorem execRxbit_event_clears {b : Bool} {s t : State} {ev : Event} (he : eventOf (.rxbit b) s = some ev)
    (hx : exec (.rxbit b) s = .next t) : t.rx = { Rxf.reset with rxbuf := t.rx.rxbuf } := by
  obtain ⟨q, hq⟩ := eventOf_rxbit_eq_some.mp he
  obtain ⟨r, hr, rfl⟩ | ⟨r, ev', u, hr, -, rfl⟩ := (execRxbit_next b s t).mp hx
  · exact absurd (Prod.mk.inj (Except.ok.inj (hq.symm.trans hr))).2 nofun
  · exact (rxStep_event_clears hr).symm.trans (rxClear_eq_reset r)

end Sys2Proof.Machine

namespace Sys2Proof.Proofs

open Sys2Proof.Machine

/-- Settles O2: every register is at the value of R38, and the sums over no bins are 0. -/
theorem resetMeetsInvariant : Obligations.ResetMeetsInvariant := fun _ hc => inv_resetWith hc

/-- Settles O14, along what a step can do: each command's block of registers meets its part of the invariant again. -/
theorem stepKeepsInvariant : Obligations.StepKeepsInvariant := fun _ _ h hs => step_keeps_inv h hs

/-- Settles O15: (a) to (f) are clauses of the invariant, and a step with an event clears the receiver as `RXRST` does. -/
theorem reachableStatesMeetR37 : Obligations.ReachableStatesMeetR37 := by
  intro c s hc hs
  have h := inv_of_reachable hc hs
  refine ⟨h.rx.searching_clear, h.rx.window_clear, h.rx.length_valid, h.rx.corr_le, h.rx.unc_clear, h.tx.txlen_le, ?_, ?_⟩
  · intro t hx
    obtain rfl := (execRxrst_next s t).mp hx
    exact rxClear_eq_reset s.rx
  · intro b t ev he hx
    exact execRxbit_event_clears he hx

end Sys2Proof.Proofs
end

section
/-! PROOFS. The state, third part: when `TXBUILD` stops (R33, R52), what writes the state tag (R22), and that the bytes of `RXBUF`
beyond the packet under way never show (R31, R232). -/

namespace Sys2Proof.Machine

/-! ### The stops of `TXBUILD` (log 6, log 7) -/

/-- R125: a `TXBUILD` reads nothing exactly at the lengths 0 and 256. -/
theorem txlen_refused_iff (n : BitVec 9) : (n = 0 ∨ n = 256) ↔ (n.toNat = 0 ∨ n.toNat = 256) := by
  have h0 : n = 0 ↔ n.toNat = 0 := BitVec.toNat_inj.symm
  have h256 : n = 256 ↔ n.toNat = 256 := BitVec.toNat_inj.symm
  rw [h0, h256]

/-- The stops of `TXBUILD` in terms of the staged length and the bytes below it. -/
theorem execTxbuild_fault_iff (q : Byte) (s : State) (f : Fault) :
    exec (.txbuild q) s = .fault f ↔
      (f = .outsideStore ∧ 256 < s.tx.txlen.toNat) ∨
      (f = .unwrittenByte ∧ s.tx.txlen.toNat ≤ 255 ∧ ∃ i, i < s.tx.txlen.toNat ∧ s.tx.txbuf.get? i = none) := by
  rw [execTxbuild_fault, Memory.load_error_iff, txlen_refused_iff, bufBytes]
  constructor
  · rintro ⟨hlen, ⟨hf, hgt⟩ | hunwritten⟩
    · exact .inl ⟨hf, by omega⟩
    · exact .inr hunwritten
  · rintro (⟨hf, hgt⟩ | ⟨hf, hle, i, hi, hn⟩)
    · exact ⟨by omega, .inl ⟨hf, by omega⟩⟩
    · exact ⟨by omega, .inr ⟨hf, hle, i, hi, hn⟩⟩

/-- R33, R52: where the invariant holds `TXBUILD` has all it reads. -/
theorem execTxbuild_ne_fault {s : State} (h : TxInv s.tx) (q : Byte) (f : Fault) : exec (.txbuild q) s ≠ .fault f := by
  intro hx
  obtain ⟨-, hgt⟩ | ⟨-, hle, i, hi, hn⟩ := (execTxbuild_fault_iff q s f).mp hx
  · exact absurd h.txlen_le (by omega)
  · have hwritten := h.txbuf_written i hi (by simp only [bufBytes]; omega)
    simp [hn] at hwritten

/-! ### The state tag (R22) -/

/-- R148, R149: a bit in `SEARCHING` leaves the tag there or moves it to `HEADER`. -/
theorem searchBit_st (c : Cfg) {r : Rxf} (b : Bool) (hst : r.st = .searching) :
    (searchBit c r b).st = .searching ∨ (searchBit c r b).st = .header := by
  unfold searchBit
  split
  · exact .inr rfl
  · exact .inl hst

/-- R22: the state tag after one bit. -/
theorem rxStep_st {c : Cfg} {r r' : Rxf} {b : Bool} {ev : Option Event} (h : rxStep c r b = .ok (r', ev)) :
    r'.st = r.st ∨ (r.st = .searching ∧ r'.st = .header) ∨ (r.st = .header ∧ r'.st = .payload) ∨
      (r.st = .header ∧ r'.st = .searching) ∨ (r.st = .payload ∧ r'.st = .endCheck) ∨
      (r.st = .endCheck ∧ r'.st = .searching) := by
  cases hst : r.st with
  | searching =>
    rw [rxStep_searching hst] at h
    obtain ⟨rfl, -⟩ := Prod.mk.inj (Except.ok.inj h)
    exact (searchBit_st c b hst).imp_right fun hh => .inl ⟨rfl, hh⟩
  | header =>
    obtain ⟨q, hq, hfin⟩ := groupBit_ok (rxStep_header hst b ▸ h)
    obtain ⟨qst, -⟩ := completeGroup_keeps hq
    obtain ⟨-, he⟩ | ⟨-, -, he⟩ | ⟨-, -, he⟩ := headerEnd_cases q (r.bitcnt.toNat + 1) <;>
      obtain ⟨rfl, -⟩ := Prod.mk.inj (hfin.trans he)
    · exact .inl (qst.trans hst)
    · simp
    · simp
  | payload =>
    obtain ⟨q, hq, hfin⟩ := groupBit_ok (rxStep_payload hst b ▸ h)
    obtain ⟨qst, -⟩ := completeGroup_keeps hq
    obtain ⟨-, he⟩ | ⟨-, he⟩ := payloadEnd_cases q (r.bitcnt.toNat + 1) <;>
      obtain ⟨rfl, -⟩ := Prod.mk.inj (hfin.trans he)
    · exact .inl (qst.trans hst)
    · simp
  | endCheck =>
    obtain ⟨-, he⟩ | ⟨-, -, payload, -, he⟩ | ⟨-, -, he⟩ := endBit_ok (rxStep_endCheck hst b ▸ h) <;>
      obtain ⟨rfl, -⟩ := Prod.mk.inj he
    · exact .inl hst
    · simp
    · simp

/-! ### Commands other than `RXBIT` and `RXRST` -/

/-- R127, R141, R102, R107, R184: every command but `RXBIT` and `RXRST` leaves the receiver alone, and does the same whatever the
receiver holds. -/
theorem exec_independent_of_rx {i : Instr} {s t : State} (hbit : ∀ b, i ≠ .rxbit b) (hrst : i ≠ .rxrst)
    (h : exec i s = .next t) : t.rx = s.rx ∧ ∀ r : Rxf, exec i { s with rx := r } = .next { t with rx := r } := by
  cases i with
  | nop => exact ((execNop_next s t).mp h) ▸ ⟨rfl, fun r => rfl⟩
  | enc n => exact ((execEnc_next n s t).mp h) ▸ ⟨rfl, fun r => rfl⟩
  | dec c =>
    obtain ⟨d, hd, rfl⟩ := (execDec_next c s t).mp h
    exact ⟨rfl, fun r => (execDec_next c _ _).mpr ⟨d, hd, rfl⟩⟩
  | rxbit b => exact absurd rfl (hbit b)
  | rxrst => exact absurd rfl hrst
  | txput v =>
    obtain ⟨hlen, rfl⟩ | ⟨hlen, rfl⟩ := (execTxput_next v s t).mp h
    · exact ⟨rfl, fun r => (execTxput_next v _ _).mpr (.inl ⟨hlen, rfl⟩)⟩
    · exact ⟨rfl, fun r => (execTxput_next v _ _).mpr (.inr ⟨hlen, rfl⟩)⟩
  | txbuild q =>
    obtain ⟨hlen, rfl⟩ | ⟨hlen, msg, hl, ⟨bits, hb, rfl⟩ | ⟨e, hb, rfl⟩⟩ := (execTxbuild_next q s t).mp h
    · exact ⟨rfl, fun r => (execTxbuild_next q _ _).mpr (.inl ⟨hlen, rfl⟩)⟩
    · exact ⟨rfl, fun r => (execTxbuild_next q _ _).mpr (.inr ⟨hlen, msg, hl, .inl ⟨bits, hb, rfl⟩⟩)⟩
    · exact ⟨rfl, fun r => (execTxbuild_next q _ _).mpr (.inr ⟨hlen, msg, hl, .inr ⟨e, hb, rfl⟩⟩)⟩
  | txclr => exact ((execTxclr_next s t).mp h) ▸ ⟨rfl, fun r => rfl⟩
  | snap => exact ((execSnap_next s t).mp h) ▸ ⟨rfl, fun r => rfl⟩

/-! ### Stale bytes of `RXBUF` (R31, R232)

Each operation of the receive framer, with another store in the place of `RXBUF`, does the same to every other register. -/

/-- The registers with another store in the place of `RXBUF`. -/
def Rxf.withRxbuf (r : Rxf) (m : Memory) : Rxf := { r with rxbuf := m }

@[simp] theorem withRxbuf_st (r : Rxf) (m : Memory) : (r.withRxbuf m).st = r.st := rfl
@[simp] theorem withRxbuf_sh (r : Rxf) (m : Memory) : (r.withRxbuf m).sh = r.sh := rfl
@[simp] theorem withRxbuf_bitcnt (r : Rxf) (m : Memory) : (r.withRxbuf m).bitcnt = r.bitcnt := rfl
@[simp] theorem withRxbuf_hi (r : Rxf) (m : Memory) : (r.withRxbuf m).hi = r.hi := rfl
@[simp] theorem withRxbuf_hdr (r : Rxf) (m : Memory) : (r.withRxbuf m).hdr = r.hdr := rfl
@[simp] theorem withRxbuf_rxbuf (r : Rxf) (m : Memory) : (r.withRxbuf m).rxbuf = m := rfl
@[simp] theorem shiftGroup_withRxbuf (r : Rxf) (b : Bool) (m : Memory) :
    shiftGroup (r.withRxbuf m) b = (shiftGroup r b).withRxbuf m := rfl

/-- R145 with the decode known: the equation beside `takeGroup_ok`. -/
theorem takeGroup_of_dec {c : Cfg} {g : Codeword} {d : DecResult} (h : dec c g = some d) (r : Rxf) :
    takeGroup c r g = .ok (d.nibble, { r with corr := addCorrected r.corr d }) := by
  simp only [takeGroup, h, mergeUnc_of_dec h]

/-- The equation beside `groupBit_ok`: a bit in `HEADER` or `PAYLOAD` whose group goes on. -/
theorem groupBit_of_completeGroup {fin : Rxf → Nat → Rxf × Option Event} {c : Cfg} {r q : Rxf} {b : Bool}
    (h : completeGroup c (shiftGroup r b) (r.bitcnt.toNat + 1) = .ok q) :
    groupBit fin c r b = .ok (fin q (r.bitcnt.toNat + 1)) := by
  simp only [groupBit, h]

theorem searchBit_withRxbuf (c : Cfg) (r : Rxf) (b : Bool) (m : Memory) :
    searchBit c (r.withRxbuf m) b = (searchBit c r b).withRxbuf m := by
  unfold searchBit
  by_cases hsync : syncMatch c (shiftIn r.win b) (fillNext r) = true
  · rw [if_pos hsync]
    exact if_pos hsync
  · rw [if_neg hsync]
    exact if_neg hsync

theorem headerEnd_withRxbuf (r : Rxf) (n : Nat) (m : Memory) :
    headerEnd (r.withRxbuf m) n = ((headerEnd r n).1.withRxbuf m, (headerEnd r n).2) := by
  obtain ⟨hne, he⟩ | ⟨h56, h0, he⟩ | ⟨h56, h0, he⟩ := headerEnd_cases r n <;> rw [he]
  · exact if_neg hne
  · exact (if_pos h56).trans (if_pos h0)
  · exact (if_pos h56).trans (if_neg h0)

theorem payloadEnd_withRxbuf (r : Rxf) (n : Nat) (m : Memory) :
    payloadEnd (r.withRxbuf m) n = ((payloadEnd r n).1.withRxbuf m, (payloadEnd r n).2) := by
  obtain ⟨hne, he⟩ | ⟨hend, he⟩ := payloadEnd_cases r n <;> rw [he]
  · exact if_neg hne
  · exact if_pos hend

/-- In `PAYLOAD` the group's byte is written over either store, so the two agree on one byte more. -/
theorem completeGroup_withRxbuf {c : Cfg} {r r' : Rxf} {k : Nat} (m : Memory) (h : completeGroup c r (k + 1) = .ok r') :
    ∃ m' : Memory, completeGroup c (r.withRxbuf m) (k + 1) = .ok (r'.withRxbuf m') ∧
      (r.st = .payload → (∀ a, a < k / 14 → m.get? a = r.rxbuf.get? a) →
        ∀ a, a < (k + 1) / 14 → m'.get? a = r'.rxbuf.get? a) := by
  obtain ⟨h7, rfl⟩ | ⟨h7, d, hd, ⟨h2, rfl⟩ | ⟨h2, hst, hdr, hs, rfl⟩ | ⟨h2, hst, hi, rfl⟩⟩ := completeGroup_ok h
  · exact ⟨m, completeGroup_inside c _ h7, fun _ hm a ha => hm a (by omega)⟩
  · refine ⟨m, ?_, fun _ hm a ha => hm a (by omega)⟩
    simp only [completeGroup, h7, withRxbuf_sh, takeGroup_of_dec hd, storeNibble, h2, if_true]
    rfl
  · refine ⟨m, ?_, fun hp => absurd (hst.symm.trans hp) (by decide)⟩
    simp only [completeGroup, h7, withRxbuf_sh, takeGroup_of_dec hd, storeNibble, h2, storeByte, withRxbuf_st, hst, storeHeaderByte,
      withRxbuf_hdr, withRxbuf_hi, hs, if_true, if_false]
    rfl
  · refine ⟨Cells.set m (((k + 1) / 7 - 1) / 2) (joinNibbles r.hi d.nibble), ?_, fun _ hm a ha => ?_⟩
    · simp only [completeGroup, h7, withRxbuf_sh, takeGroup_of_dec hd, storeNibble, h2, storeByte, withRxbuf_st, hst,
        storePayloadByte, withRxbuf_rxbuf, withRxbuf_hi, Memory.store_of_lt _ _ hi, if_true, if_false]
      rfl
    · simp only [Memory.get?_set]
      split
      · rfl
      · exact hm a (by omega)

/-- Before `PAYLOAD` and after a packet no byte of `RXBUF` is the packet's. -/
theorem bytesDone_eq_zero {r : Rxf} (h : r.st = .searching ∨ r.st = .header) : bytesDone r = 0 := by
  obtain hst | hst := h <;> simp only [bytesDone, hst]

/-- R153, R154: a bit in `HEADER` neither reads nor writes `RXBUF`, and no byte of it is the packet's yet. -/
theorem headerBit_withRxbuf {c : Cfg} {r r' : Rxf} {b : Bool} {ev : Option Event} (m : Memory) (hst : r.st = .header)
    (h : groupBit headerEnd c r b = .ok (r', ev)) :
    ∃ m' : Memory, groupBit headerEnd c (r.withRxbuf m) b = .ok (r'.withRxbuf m', ev) ∧ bytesDone r' = 0 := by
  obtain ⟨q, hq, hfin⟩ := groupBit_ok h
  obtain ⟨qst, -⟩ := completeGroup_keeps hq
  obtain ⟨m', hm', -⟩ := completeGroup_withRxbuf m hq
  refine ⟨m', ?_, ?_⟩
  · rw [groupBit_of_completeGroup hm', withRxbuf_bitcnt, headerEnd_withRxbuf, ← hfin]
  · obtain ⟨-, he⟩ | ⟨-, -, he⟩ | ⟨-, -, he⟩ := headerEnd_cases q (r.bitcnt.toNat + 1) <;>
      obtain ⟨rfl, -⟩ := Prod.mk.inj (hfin.trans he)
    · exact bytesDone_eq_zero (.inr (qst.trans hst))
    · exact bytesDone_eq_zero (.inl rfl)
    · exact Nat.zero_div 14

/-- R155, R156: a bit in `PAYLOAD` writes at most the byte it completes. -/
theorem payloadBit_withRxbuf {c : Cfg} {r r' : Rxf} {b : Bool} {ev : Option Event} {m : Memory} (hst : r.st = .payload)
    (hm : ∀ a, a < r.bitcnt.toNat / 14 → m.get? a = r.rxbuf.get? a) (h : groupBit payloadEnd c r b = .ok (r', ev)) :
    ∃ m' : Memory, groupBit payloadEnd c (r.withRxbuf m) b = .ok (r'.withRxbuf m', ev) ∧
      ∀ a, a < bytesDone r' → m'.get? a = r'.rxbuf.get? a := by
  obtain ⟨q, hq, hfin⟩ := groupBit_ok h
  obtain ⟨qst, -, -, -, qbit, -⟩ := completeGroup_keeps hq
  obtain ⟨m', hm', hagree⟩ := completeGroup_withRxbuf m hq
  have qagree := hagree hst hm
  refine ⟨m', ?_, fun a ha => ?_⟩
  · rw [groupBit_of_completeGroup hm', withRxbuf_bitcnt, payloadEnd_withRxbuf, ← hfin]
  · obtain ⟨-, he⟩ | ⟨hend, he⟩ := payloadEnd_cases q (r.bitcnt.toNat + 1) <;>
      obtain ⟨rfl, -⟩ := Prod.mk.inj (hfin.trans he)
    · have hwrap : (r.bitcnt + 1).toNat ≤ r.bitcnt.toNat + 1 := BitVec.toNat_add _ _ ▸ Nat.mod_le _ _
      simp only [bytesDone, qst, shiftGroup_st, hst, qbit, shiftGroup_bitcnt] at ha
      exact qagree a (by omega)
    · simp only [bytesDone] at ha
      exact qagree a (by omega)

/-- R157, R158: a bit in `END_CHECK` reads only the bytes of the payload, and writes none. -/
theorem endBit_withRxbuf {c : Cfg} {r r' : Rxf} {b : Bool} {ev : Option Event} {m : Memory} (hst : r.st = .endCheck)
    (hm : ∀ a, a < r.hdr.plen.toNat → m.get? a = r.rxbuf.get? a) (h : endBit c r b = .ok (r', ev)) :
    endBit c (r.withRxbuf m) b = .ok (r'.withRxbuf m, ev) ∧ ∀ a, a < bytesDone r' → m.get? a = r'.rxbuf.get? a := by
  obtain ⟨h8, he⟩ | ⟨h8, hend, payload, hl, he⟩ | ⟨h8, hend, he⟩ := endBit_ok h <;> obtain ⟨rfl, rfl⟩ := Prod.mk.inj he
  · refine ⟨if_neg h8, ?_⟩
    simpa only [bytesDone, hst] using hm
  · refine ⟨?_, nofun⟩
    simp only [endBit, withRxbuf_bitcnt, withRxbuf_sh, withRxbuf_rxbuf, withRxbuf_hdr, h8, hend, Memory.load_congr hm, hl, if_true]
    rfl
  · refine ⟨?_, nofun⟩
    simp only [endBit, withRxbuf_bitcnt, withRxbuf_sh, h8, hend, if_true]
    rfl

/-- R31, R232: a bit received over another `RXBUF` that agrees on the bytes written so far does the same to every other register,
has the same event, and leaves two stores that agree on the bytes written by then. -/
theorem rxStep_withRxbuf {c : Cfg} {r r' : Rxf} {b : Bool} {ev : Option Event} {m : Memory}
    (hm : ∀ a, a < bytesDone r → m.get? a = r.rxbuf.get? a) (h : rxStep c r b = .ok (r', ev)) :
    ∃ m' : Memory, rxStep c (r.withRxbuf m) b = .ok (r'.withRxbuf m', ev) ∧
      ∀ a, a < bytesDone r' → m'.get? a = r'.rxbuf.get? a := by
  cases hst : r.st with
  | searching =>
    rw [rxStep_searching hst] at h
    obtain ⟨rfl, rfl⟩ := Prod.mk.inj (Except.ok.inj h)
    refine ⟨m, by rw [rxStep_searching (r := r.withRxbuf m) hst, searchBit_withRxbuf], ?_⟩
    rw [bytesDone_eq_zero (searchBit_st c b hst)]
    exact nofun
  | header =>
    obtain ⟨m', hm', hnone⟩ := headerBit_withRxbuf m hst (rxStep_header hst b ▸ h)
    refine ⟨m', by rw [rxStep_header (r := r.withRxbuf m) hst, hm'], ?_⟩
    rw [hnone]
    exact nofun
  | payload =>
    have hdone : bytesDone r = r.bitcnt.toNat / 14 := by simp only [bytesDone, hst]
    rw [rxStep_payload (r := r.withRxbuf m) hst]
    exact payloadBit_withRxbuf hst (hdone ▸ hm) (rxStep_payload hst b ▸ h)
  | endCheck =>
    have hdone : bytesDone r = r.hdr.plen.toNat := by simp only [bytesDone, hst]
    rw [rxStep_endCheck (r := r.withRxbuf m) hst]
    exact ⟨m, endBit_withRxbuf hst (hdone ▸ hm) (rxStep_endCheck hst b ▸ h)⟩

end Sys2Proof.Machine

namespace Sys2Proof.Proofs

open Sys2Proof.Machine

/-- Settles O32, by the stops of reading the staged message. -/
theorem txbuildStopsOutOfReach : Obligations.TxbuildStopsOutOfReach :=
  fun q s f => ⟨execTxbuild_fault_iff q s f, fun h => execTxbuild_ne_fault h.tx q f⟩

/-- Settles O43: `RXBIT` moves the tag as `rxStep_st` says, `RXRST` clears it, and no other command touches the receiver. -/
theorem stateTagTransitions : Obligations.StateTagTransitions := by
  intro i s t h hne
  by_cases hbit : ∃ b, i = .rxbit b
  · obtain ⟨b, rfl⟩ := hbit
    refine .inr ⟨⟨b, rfl⟩, ?_⟩
    obtain ⟨r, hr, rfl⟩ | ⟨r, ev, u, hr, -, rfl⟩ := (execRxbit_next b s t).mp h <;>
      exact (rxStep_st hr).resolve_left hne
  · by_cases hrst : i = .rxrst
    · subst hrst
      obtain rfl := (execRxrst_next s t).mp h
      exact .inl ⟨rfl, rfl⟩
    · obtain ⟨hrx, -⟩ := exec_independent_of_rx (fun b hb => hbit ⟨b, hb⟩) hrst h
      exact absurd (congrArg Rxf.st hrx) hne

/-- Settles O51: a bit reads only bytes its packet has written, `RXRST` leaves none written, and no other command reads the
receiver. -/
theorem staleRxbufNeverShows : Obligations.StaleRxbufNeverShows := by
  intro i s t m hm h
  by_cases hbit : ∃ b, i = .rxbit b
  · obtain ⟨b, rfl⟩ := hbit
    obtain ⟨r, hr, rfl⟩ | ⟨r, ev, u, hr, hu, rfl⟩ := (execRxbit_next b s t).mp h <;>
      obtain ⟨m', hm', hagree⟩ := rxStep_withRxbuf hm hr
    · exact ⟨m', (execRxbit_next b _ _).mpr (.inl ⟨_, hm', rfl⟩), hagree⟩
    · exact ⟨m', (execRxbit_next b _ _).mpr (.inr ⟨_, ev, u, hm', hu, rfl⟩), hagree⟩
  · by_cases hrst : i = .rxrst
    · subst hrst
      obtain rfl := (execRxrst_next s t).mp h
      exact ⟨m, rfl, fun a ha => absurd ha (Nat.not_lt_zero a)⟩
    · obtain ⟨hrx, hother⟩ := exec_independent_of_rx (fun b hb => hbit ⟨b, hb⟩) hrst h
      exact ⟨m, by rw [hrx]; exact hother _, by rw [hrx]; exact hm⟩

end Sys2Proof.Proofs
end

section
/-! PROOFS. The byte stores and the command stream (spec/20_memory.md): what a store of one byte does (R50, R58), and that a run of
the core over command words is the commands executed in order (R61). -/

namespace Sys2Proof.Machine

/-! ### The commands to come (R61) -/

/-- R80, R81: the word of a command stands for that command. -/
theorem decode_encode (i : Instr) : decode (encode i) = .ok i := by
  cases i with
  | nop => rfl
  | enc n => revert n; decide
  | dec c => revert c; decide
  | rxbit b => revert b; decide
  | rxrst => rfl
  | txput v => revert v; decide
  | txbuild q => revert q; decide
  | txclr => rfl
  | snap => rfl

/-- The state with other commands to come. -/
def State.withCmds (s : State) (ws : List Word) : State := { s with cmds := ws }

@[simp] theorem withCmds_cfg (s : State) (ws : List Word) : (s.withCmds ws).cfg = s.cfg := rfl
@[simp] theorem withCmds_rx (s : State) (ws : List Word) : (s.withCmds ws).rx = s.rx := rfl
@[simp] theorem withCmds_tx (s : State) (ws : List Word) : (s.withCmds ws).tx = s.tx := rfl
@[simp] theorem withCmds_stat (s : State) (ws : List Word) : (s.withCmds ws).stat = s.stat := rfl
@[simp] theorem withCmds_cmds (s : State) (ws : List Word) : (s.withCmds ws).cmds = ws := rfl

/-- An outcome with other commands to come in its state; a stop is the same stop. -/
def outcomeWithCmds (ws : List Word) : Host.Outcome State Fault Refusal → Host.Outcome State Fault Refusal
  | .next t => .next (t.withCmds ws)
  | .fault f => .fault f
  | .refused r => .refused r

/-- R61: no command reads or writes the commands to come, whether it goes on or stops. -/
theorem exec_withCmds (i : Instr) (s : State) (ws : List Word) :
    exec i (s.withCmds ws) = outcomeWithCmds ws (exec i s) := by
  cases i with
  | nop => rfl
  | enc n => rfl
  | dec c =>
    simp only [exec, execDec, withCmds_cfg]
    cases dec s.cfg c <;> rfl
  | rxbit b =>
    simp only [exec, execRxbit, withCmds_cfg, withCmds_rx, withCmds_stat]
    cases rxStep s.cfg s.rx b with
    | error f => rfl
    | ok p =>
      obtain ⟨r, _ | ev⟩ := p
      · rfl
      · cases hr : record ev s.stat <;> simp only [hr] <;> rfl
  | rxrst => rfl
  | txput v =>
    by_cases hlen : s.tx.txlen.toNat ≤ 254
    · simp only [exec, execTxput, withCmds_tx, hlen, if_true]
      cases s.tx.txbuf.store s.tx.txlen.toNat v <;> rfl
    · simp only [exec, execTxput, withCmds_tx, hlen, if_false]
      rfl
  | txbuild q =>
    by_cases hlen : s.tx.txlen = 0 ∨ overflowMark s.tx.txlen = true
    · simp only [exec, execTxbuild, withCmds_tx, hlen, if_true]
      rfl
    · simp only [exec, execTxbuild, withCmds_tx, withCmds_cfg, hlen, if_false]
      cases s.tx.txbuf.load s.tx.txlen.toNat with
      | error f => rfl
      | ok msg => cases hb : build s.cfg msg q <;> simp only [hb] <;> rfl
  | txclr => rfl
  | snap => rfl

/-- R61: the core's step on the word of `i` executes `i`, the words after it still to come. -/
theorem step_withCmds_encode (i : Instr) (ws : List Word) (s : State) :
    step (s.withCmds (encode i :: ws)) = outcomeWithCmds ws (exec i s) :=
  (step_of_decode (withCmds_cmds s _) (decode_encode i)).trans (exec_withCmds i s ws)

/-- R61: the core run over the words of `is`, issued before all others, executes `is` in order, a stop included. -/
theorem run_encode_eq_execAll (is : List Instr) (s : State) :
    Host.Core.run core is.length (s.withCmds (is.map encode ++ s.cmds)) = execAll is s := by
  induction is generalizing s with
  | nil => rfl
  | cons i is ih =>
    have hstep : core.step (s.withCmds ((i :: is).map encode ++ s.cmds)) =
        outcomeWithCmds (is.map encode ++ s.cmds) (exec i s) := step_withCmds_encode i _ s
    simp only [List.length_cons, Host.Core.run, execAll, hstep]
    cases hx : exec i s with
    | next t =>
      obtain ⟨-, hcmds⟩ := exec_keeps_cfg_cmds hx
      rw [← hcmds]
      exact ih t
    | fault f => rfl
    | refused r => rfl

end Sys2Proof.Machine

namespace Sys2Proof.Proofs

open Sys2Proof.Machine

/-- Settles O52, by the laws of the byte store: read after write, the frame, and the canonical form. -/
theorem storedByteReadsBack : Obligations.StoredByteReadsBack := by
  intro m i v
  refine ⟨fun hi => ?_, Memory.store_of_ge m v⟩
  have hstore := Memory.store_of_lt m v hi
  exact ⟨_, hstore, by rw [Memory.get?_set, if_pos rfl], fun a ha => by rw [Memory.get?_set, if_neg ha],
    Memory.store_keeps_wf hstore⟩

/-- Settles O11, by induction on the commands: each step executes one of them, and none touches the words to come. -/
theorem runIsFoldOfCommands : Obligations.RunIsFoldOfCommands :=
  fun is rest s => run_encode_eq_execAll is (s.withCmds rest)

end Sys2Proof.Proofs
end

section
/-! PROOFS. The stops of `RXBIT` (spec/20_memory.md R52; log 5, log 6, log 7): exactly when one bit stops, in each state of the
receive framer, and that the invariant excludes it. -/

namespace Sys2Proof.Machine

/-! ### When one bit stops -/

/-- R153, R155, R52: the byte of the group that ends at bit `n` has no place exactly when bit `n` ends a byte beyond the `k`
bytes of its store. -/
theorem byte_beyond_iff (n k : Nat) :
    (n % 7 = 0 ∧ (n / 7 - 1) % 2 ≠ 0 ∧ k ≤ (n / 7 - 1) / 2) ↔ (n % 14 = 0 ∧ 14 * k < n) := by
  omega

/-- When a bit in `HEADER` or `PAYLOAD`, whose store has `k` bytes, stops: its group's syndrome has no column, or its group's
byte has no place. -/
theorem groupBit_stop_iff {fin : Rxf → Nat → Rxf × Option Event} {c : Cfg} {r : Rxf} {k : Nat} (b : Bool) (f : Fault)
    (hk : k = if r.st = .header then 4 else bufBytes) :
    groupBit fin c r b = .error f ↔
      (f = .cfgIllFormed ∧ (r.bitcnt.toNat + 1) % 7 = 0 ∧ dec c (groupOf (shiftGroup r b).sh) = none) ∨
      (f = .outsideStore ∧ (r.bitcnt.toNat + 1) % 14 = 0 ∧ 14 * k < r.bitcnt.toNat + 1 ∧
        dec c (groupOf (shiftGroup r b).sh) ≠ none) := by
  have hplace : ∀ j, ((shiftGroup r b).st = .header ∧ 4 ≤ j ∨ (shiftGroup r b).st ≠ .header ∧ bufBytes ≤ j) ↔ k ≤ j := by
    intro j
    by_cases hst : r.st = .header <;> simp [hk, hst]
  have hbyte := byte_beyond_iff (r.bitcnt.toNat + 1) k
  rw [groupBit_error_iff, completeGroup_error_iff, hplace]
  constructor
  · rintro ⟨h7, ⟨hf, hd⟩ | ⟨hf, hd, h2, hj⟩⟩
    · exact .inl ⟨hf, h7, hd⟩
    · obtain ⟨h14, hlt⟩ := hbyte.mp ⟨h7, h2, hj⟩
      exact .inr ⟨hf, h14, hlt, hd⟩
  · rintro (⟨hf, h7, hd⟩ | ⟨hf, h14, hlt, hd⟩)
    · exact ⟨h7, .inl ⟨hf, hd⟩⟩
    · obtain ⟨h7, h2, hj⟩ := hbyte.mpr ⟨h14, hlt⟩
      exact ⟨h7, .inr ⟨hf, hd, h2, hj⟩⟩

/-- R157: only the last bit of a matching end marker emits, and it emits the packet of the registers before the step. -/
theorem rxStep_emits {c : Cfg} {r r' : Rxf} {b : Bool} {pkt : DecodedPacket}
    (h : rxStep c r b = .ok (r', some (.packetEmitted pkt))) :
    r.st = .endCheck ∧ r.bitcnt.toNat + 1 = 8 ∧ endMatch c (shiftIn r.sh b) = true ∧
      ∃ payload, r.rxbuf.load r.hdr.plen.toNat = .ok payload ∧ pkt = packetOf r payload := by
  cases hst : r.st with
  | searching =>
    rw [rxStep_searching hst] at h
    exact absurd (Prod.mk.inj (Except.ok.inj h)).2 nofun
  | header =>
    obtain ⟨q, -, hfin⟩ := groupBit_ok (rxStep_header hst b ▸ h)
    obtain ⟨-, he⟩ | ⟨-, -, he⟩ | ⟨-, -, he⟩ := headerEnd_cases q (r.bitcnt.toNat + 1) <;>
      exact absurd (Prod.mk.inj (hfin.trans he)).2 (by simp)
  | payload =>
    obtain ⟨q, -, hfin⟩ := groupBit_ok (rxStep_payload hst b ▸ h)
    obtain ⟨-, he⟩ | ⟨-, he⟩ := payloadEnd_cases q (r.bitcnt.toNat + 1) <;>
      exact absurd (Prod.mk.inj (hfin.trans he)).2 nofun
  | endCheck =>
    obtain ⟨-, he⟩ | ⟨h8, hm, payload, hl, he⟩ | ⟨-, -, he⟩ := endBit_ok (rxStep_endCheck hst b ▸ h) <;>
      obtain ⟨-, hev⟩ := Prod.mk.inj he
    · exact absurd hev nofun
    · exact ⟨rfl, h8, hm, payload, hl, by simpa using hev⟩
    · exact absurd hev (by simp)

/-- R51: a payload, whose length is a byte, is read exactly when all its bytes have been written. -/
theorem payload_loads_iff (m : Memory) (len : Byte) :
    (∃ vs, m.load len.toNat = .ok vs) ↔ ∀ i, i < len.toNat → m.get? i ≠ none := by
  have hlen : len.toNat ≤ bufBytes := Nat.le_of_lt_succ len.isLt
  constructor
  · rintro ⟨vs, hl⟩ i hi hn
    rw [m.load_of_unwritten hlen hi hn] at hl
    exact absurd hl nofun
  · exact fun hw => m.load_of_written hlen fun i hi => Option.isSome_iff_ne_none.mpr (hw i hi)

/-- Outside `END_CHECK` a bit emits nothing, so `RXBIT` stops only where the receive framer does. -/
theorem execRxbit_fault_of_ne_endCheck {s : State} (hst : s.rx.st ≠ .endCheck) (b : Bool) (f : Fault) :
    exec (.rxbit b) s = .fault f ↔ rxStep s.cfg s.rx b = .error f := by
  rw [execRxbit_fault, or_iff_left]
  rintro ⟨-, r, pkt, hr, -⟩
  exact hst (rxStep_emits hr).1

/-- In `END_CHECK` an `RXBIT` stops only where it emits: at a byte nothing has written, or at a count that has no bin. -/
theorem execRxbit_fault_endCheck {s : State} (hst : s.rx.st = .endCheck) (b : Bool) (f : Fault) :
    exec (.rxbit b) s = .fault f ↔
      (f = .unwrittenByte ∧ (s.rx.bitcnt.toNat + 1 = 8 ∧ endMatch s.cfg (shiftIn s.rx.sh b) = true) ∧
        ∃ i, i < s.rx.hdr.plen.toNat ∧ s.rx.rxbuf.get? i = none) ∨
      (f = .outsideStore ∧ (s.rx.bitcnt.toNat + 1 = 8 ∧ endMatch s.cfg (shiftIn s.rx.sh b) = true) ∧
        (∀ i, i < s.rx.hdr.plen.toNat → s.rx.rxbuf.get? i ≠ none) ∧ histBins ≤ s.rx.corr.toNat) := by
  rw [execRxbit_fault, ← payload_loads_iff, rxStep_endCheck hst, endBit_error_iff]
  constructor
  · rintro (⟨hf, h8, hm, hi⟩ | ⟨hf, r, pkt, hr, hc⟩)
    · exact .inl ⟨hf, ⟨h8, hm⟩, hi⟩
    · obtain ⟨-, h8, hm, payload, hl, rfl⟩ := rxStep_emits ((rxStep_endCheck hst b).trans hr)
      exact .inr ⟨hf, ⟨h8, hm⟩, ⟨payload, hl⟩, hc⟩
  · rintro (⟨hf, ⟨h8, hm⟩, hi⟩ | ⟨hf, ⟨h8, hm⟩, ⟨payload, hl⟩, hc⟩)
    · exact .inl ⟨hf, h8, hm, hi⟩
    · exact .inr ⟨hf, rxClear s.rx, packetOf s.rx payload, by simp only [endBit, h8, hm, hl, if_true], hc⟩

/-! ### The invariant excludes the stops (R52, R232) -/

/-- R23, R52: before every bit in `HEADER` or `PAYLOAD` the byte under way has its place. -/
theorem groupBit_ne_error {c : Cfg} (hc : c.wf = true) {r : Rxf} (h : RxInv r) (hst : r.st = .header ∨ r.st = .payload)
    (fin : Rxf → Nat → Rxf × Option Event) (b : Bool) (f : Fault) : groupBit fin c r b ≠ .error f := by
  have hbit := h.bitcnt_lt
  have hlen := r.hdr.plen.isLt
  obtain ⟨q, hq⟩ := completeGroup_total hc (shiftGroup r b) (r.bitcnt.toNat + 1)
    (fun hh => by simp only [shiftGroup_st] at hh; simp only [bitLimit, hh] at hbit; omega)
    (fun hp => by
      simp only [bitLimit, hst.resolve_left hp] at hbit
      omega)
  rw [groupBit_of_completeGroup hq]
  exact nofun

/-- R52, R232: where the invariant holds every received bit has its step. -/
theorem execRxbit_ne_fault {s : State} (h : Inv s) (b : Bool) (f : Fault) : exec (.rxbit b) s ≠ .fault f := by
  intro hx
  cases hst : s.rx.st with
  | searching =>
    rw [execRxbit_fault_of_ne_endCheck (by simp [hst]), rxStep_searching hst] at hx
    exact absurd hx nofun
  | header =>
    rw [execRxbit_fault_of_ne_endCheck (by simp [hst]), rxStep_header hst] at hx
    exact groupBit_ne_error h.cfg_wf h.rx (.inl hst) _ b f hx
  | payload =>
    rw [execRxbit_fault_of_ne_endCheck (by simp [hst]), rxStep_payload hst] at hx
    exact groupBit_ne_error h.cfg_wf h.rx (.inr hst) _ b f hx
  | endCheck =>
    obtain ⟨-, -, i, hi, hn⟩ | ⟨-, -, -, hc⟩ := (execRxbit_fault_endCheck hst b f).mp hx
    · have hwritten := h.rx.rxbuf_written i (by simpa only [bytesDone, hst] using hi)
      simp [hn] at hwritten
    · have hcorr := h.rx.corr_le
      have hlen := s.rx.hdr.plen.isLt
      simp only [groupsDone, hst] at hcorr
      simp only [histBins] at hc
      omega

end Sys2Proof.Machine

namespace Sys2Proof.Proofs

open Sys2Proof.Machine

/-- Settles O42, state by state: a bit in `SEARCHING` never stops, one in `HEADER` or `PAYLOAD` stops with its group, and one in
`END_CHECK` with its emission. -/
theorem rxbitStopsOutOfReach : Obligations.RxbitStopsOutOfReach := by
  intro b s f n g e emits
  refine ⟨?_, fun h => execRxbit_ne_fault h b f⟩
  cases hst : s.rx.st with
  | searching =>
    rw [execRxbit_fault_of_ne_endCheck (by simp [hst]), rxStep_searching hst]
    simp [emits, hst]
  | header =>
    rw [execRxbit_fault_of_ne_endCheck (by simp [hst]), rxStep_header hst, groupBit_stop_iff (k := 4) b f (by simp [hst])]
    simp only [emits, hst, reduceCtorEq, true_and, false_and, and_false, or_false]
    rfl
  | payload =>
    rw [execRxbit_fault_of_ne_endCheck (by simp [hst]), rxStep_payload hst,
      groupBit_stop_iff (k := bufBytes) b f (by simp [hst])]
    simp only [emits, hst, reduceCtorEq, or_true, true_and, false_and, and_false, or_false, false_or]
    rfl
  | endCheck =>
    rw [execRxbit_fault_endCheck hst, endMatch, decide_eq_true_iff]
    simp only [emits, hst, reduceCtorEq, or_false, true_and, false_and, and_false, false_or]
    rfl

end Sys2Proof.Proofs
end

section
/-! PROOFS. The command words (spec/30_encoding.md Part B): every command's word is an operation code followed by an operand (R79,
R80), from which decoding undoes encoding, the opcode map's rows are told apart by the operation code (R81), and the legal words are
counted (R82). -/

namespace Sys2Proof.Machine

/-! ### The format of a word (R79, R80) -/

/-- R79: the word with the operation code `k`, the operand `v` in its low bits and zeros between them. -/
def formatWord (k : Nat) {n : Nat} (v : BitVec n) : Word := BitVec.ofNat 16 k <<< 12 ||| v.setWidth 16

theorem formatWord_toNat {k n : Nat} (hk : k < 16) (hn : n ≤ 12) (v : BitVec n) :
    (formatWord k v).toNat = 4096 * k + v.toNat := by
  have hv : v.toNat < 2 ^ 12 := lt_of_lt_of_le v.isLt (Nat.pow_le_pow_right (by decide) hn)
  have hcode : (BitVec.ofNat 16 k <<< 12).toNat = 2 ^ 12 * k := by
    rw [BitVec.toNat_shiftLeft, BitVec.toNat_ofNat, Nat.shiftLeft_eq]
    omega
  have hoperand : (v.setWidth 16).toNat = v.toNat := by
    rw [BitVec.toNat_setWidth]
    omega
  rw [formatWord, BitVec.toNat_or, hcode, hoperand, ← Nat.two_pow_add_eq_or_of_lt hv]

/-- R80: the operand is the low bits of the word. -/
theorem formatWord_operand {k n : Nat} (hk : k < 16) (hn : n ≤ 12) (v : BitVec n) :
    v.toNat = (formatWord k v).toNat % 2 ^ n ∧ (formatWord k v).toNat = 4096 * k + v.toNat := by
  have hvalue := formatWord_toNat hk hn v
  obtain ⟨m, hm⟩ : 2 ^ n ∣ 4096 := Nat.pow_dvd_pow 2 hn
  refine ⟨?_, hvalue⟩
  rw [hvalue, hm, Nat.mul_assoc, Nat.mul_add_mod, Nat.mod_eq_of_lt v.isLt]

/-- A word is made of what its mask keeps and its operand. -/
theorem formatWord_of_mask {k n : Nat} {w : Word} (h : w &&& 0xFFFF#16 <<< n = BitVec.ofNat 16 k <<< 12) :
    formatWord k (operandField n w) = w := by
  rw [formatWord, ← h]
  ext j hj
  by_cases hjn : j < n
  · simp [operandField, hj, hjn]
  · have hmask : (0xFFFF#16).getLsbD (j - n) = true := by
      rw [show 0xFFFF#16 = BitVec.allOnes 16 from rfl, BitVec.getLsbD_allOnes]
      exact decide_eq_true (by omega)
    simp [operandField, hj, hjn, hmask]

/-- R79: clear padding is a 0 at each place of `w[11:0]` above the operand. -/
theorem getLsbD_of_paddingClear {n j : Nat} {w : Word} (h : paddingClear n w = true) (hn : n ≤ j) (hj : j < 12) :
    w.getLsbD j = false := by
  have hbit : ((w &&& 0x0FFF#16) >>> n).getLsbD (j - n) = false := by
    rw [beq_iff_eq.mp h]
    exact BitVec.getLsbD_zero
  have hlow : (0x0FFF#16).getLsbD j = true := by
    rw [show 0x0FFF#16 = (BitVec.allOnes 12).setWidth 16 from rfl, BitVec.getLsbD_setWidth, BitVec.getLsbD_allOnes]
    simp [hj, show j < 16 by omega]
  simpa [Nat.add_sub_of_le hn, hlow] using hbit

/-- A word whose padding is clear is made of its operation code and its operand. -/
theorem formatWord_of_paddingClear {n : Nat} {w : Word} (h : paddingClear n w = true) (hn : n ≤ 12) :
    formatWord (opcodeField w).toNat (operandField n w) = w := by
  rw [formatWord, BitVec.ofNat_toNat]
  ext j hj
  by_cases hj12 : j < 12
  · by_cases hjn : j < n
    · simp [operandField, hj, hj12, hjn]
    · have hbit := getLsbD_of_paddingClear h (by omega) hj12
      rw [BitVec.getLsbD_eq_getElem hj] at hbit
      simp [operandField, hj, hj12, hjn, hbit]
  · have hjn : ¬ j < n := by omega
    have hplace : 12 + (j - 12) = j := by omega
    simp [operandField, opcodeField, hj, hj12, hjn, show j - 12 < 4 by omega, hplace, BitVec.getLsbD_eq_getElem]

/-- A command without an operand is its operation code alone. -/
theorem formatWord_noOperand (k : Nat) (v : BitVec 0) : BitVec.ofNat 16 k <<< 12 = formatWord k v := by
  simp [formatWord, BitVec.of_length_zero]

/-- The operand of one bit is bit 0 of the word. -/
theorem encode_rxbit_getLsbD (w : Word) : encode (.rxbit (w.getLsbD 0)) = formatWord 3 (operandField 1 w) := by
  have hbit : BitVec.ofBool (w.getLsbD 0) = operandField 1 w := by
    ext j hj
    obtain rfl : j = 0 := by omega
    simp [operandField]
  exact congrArg (formatWord 3) hbit

theorem withPadding_eq_ok (n : Nat) (w : Word) (i j : Instr) :
    withPadding n w i = .ok j ↔ paddingClear n w = true ∧ i = j := by
  unfold withPadding
  split <;> simp_all

/-! ### Decoding and encoding (R80, R81) -/

/-- One arm of the decoder: a word of the arm's operation code that passes the padding test is the word of the arm's command. -/
theorem encode_of_withPadding {k n : Nat} {w : Word} {i j : Instr} (h : withPadding n w i = .ok j)
    (hcode : (opcodeField w).toNat = k) (hn : n ≤ 12) (hformat : encode i = formatWord k (operandField n w)) : encode j = w := by
  obtain ⟨hclear, rfl⟩ := (withPadding_eq_ok n w i j).mp h
  rw [hformat, ← hcode, formatWord_of_paddingClear hclear hn]

/-- R81: a legal word is the word of its command. -/
theorem encode_of_decode {w : Word} {i : Instr} (h : decode w = .ok i) : encode i = w := by
  unfold decode at h
  split at h
  case h_1 hcode => exact encode_of_withPadding h hcode (by decide) (formatWord_noOperand 0 _)
  case h_2 hcode => exact encode_of_withPadding h hcode (by decide) rfl
  case h_3 hcode => exact encode_of_withPadding h hcode (by decide) rfl
  case h_4 hcode => exact encode_of_withPadding h hcode (by decide) (encode_rxbit_getLsbD w)
  case h_5 hcode => exact encode_of_withPadding h hcode (by decide) (formatWord_noOperand 4 _)
  case h_6 hcode => exact encode_of_withPadding h hcode (by decide) rfl
  case h_7 hcode => exact encode_of_withPadding h hcode (by decide) rfl
  case h_8 hcode => exact encode_of_withPadding h hcode (by decide) (formatWord_noOperand 7 _)
  case h_9 hcode => exact encode_of_withPadding h hcode (by decide) (formatWord_noOperand 8 _)
  case h_10 => cases h

/-- R80, R81: decoding and encoding are inverse to each other. -/
theorem decode_eq_ok_iff (w : Word) (i : Instr) : decode w = .ok i ↔ encode i = w :=
  ⟨encode_of_decode, fun h => h ▸ decode_encode i⟩

theorem encode_injective : Function.Injective encode := fun i j h => by
  simpa [decode_encode] using congrArg decode h

/-! ### The opcode map (R81) -/

/-- The word of a command selects the row of its mnemonic. -/
theorem encode_selects_row (i : Instr) : ∃ row ∈ opcodeRows, row.1 = mnemonic i ∧ encode i &&& row.2.1 = row.2.2 := by
  have h : Laws.Row.Statement i := by
    cases i with
    | nop => exact Laws.Row.nop
    | enc n => exact Laws.Row.enc n
    | dec c => exact Laws.Row.dec c
    | rxbit b => exact Laws.Row.rxbit b
    | rxrst => exact Laws.Row.rxrst
    | txput v => exact Laws.Row.txput v
    | txbuild q => exact Laws.Row.txbuild q
    | txclr => exact Laws.Row.txclr
    | snap => exact Laws.Row.snap
  obtain ⟨row, hmem, hname, hsel⟩ := h
  exact ⟨row, hmem, hname, beq_iff_eq.mp hsel⟩

/-- The mask of every row keeps the whole operation code, so a word has the operation code of a row it selects. -/
theorem opcodeField_of_selects {w : Word} {row : String × Word × Word} (hmem : row ∈ opcodeRows)
    (h : w &&& row.2.1 = row.2.2) : opcodeField w = opcodeField row.2.2 := by
  have hmask : ∀ row ∈ opcodeRows, opcodeField row.2.1 = BitVec.allOnes 4 := by decide
  calc opcodeField w = opcodeField w &&& opcodeField row.2.1 := by rw [hmask row hmem, BitVec.and_allOnes]
    _ = opcodeField (w &&& row.2.1) := BitVec.extractLsb'_and.symm
    _ = opcodeField row.2.2 := by rw [h]

/-- No two rows of the map have the same operation code. -/
theorem opcodeRows_inj : ∀ row ∈ opcodeRows, ∀ row' ∈ opcodeRows, opcodeField row.2.2 = opcodeField row'.2.2 → row = row' := by
  decide

theorem row_unique {w : Word} {row row' : String × Word × Word} (hmem : row ∈ opcodeRows) (hmem' : row' ∈ opcodeRows)
    (h : w &&& row.2.1 = row.2.2) (h' : w &&& row'.2.1 = row'.2.2) : row = row' :=
  opcodeRows_inj row hmem row' hmem' ((opcodeField_of_selects hmem h).symm.trans (opcodeField_of_selects hmem' h'))

/-- A word that selects a row is a command: its bits outside the mask are the operand. -/
theorem exists_encode_of_selects {w : Word} {row : String × Word × Word} (hmem : row ∈ opcodeRows)
    (h : w &&& row.2.1 = row.2.2) : ∃ i, encode i = w := by
  simp only [opcodeRows, List.mem_cons, List.not_mem_nil, or_false] at hmem
  obtain rfl | rfl | rfl | rfl | rfl | rfl | rfl | rfl | rfl := hmem
  · exact ⟨.nop, (formatWord_noOperand 0 _).trans (formatWord_of_mask (n := 0) (k := 0) h)⟩
  · exact ⟨.enc _, formatWord_of_mask (k := 1) h⟩
  · exact ⟨.dec _, formatWord_of_mask (k := 2) h⟩
  · exact ⟨.rxbit _, (encode_rxbit_getLsbD w).trans (formatWord_of_mask (k := 3) h)⟩
  · exact ⟨.rxrst, (formatWord_noOperand 4 _).trans (formatWord_of_mask (n := 0) (k := 4) h)⟩
  · exact ⟨.txput _, formatWord_of_mask (k := 5) h⟩
  · exact ⟨.txbuild _, formatWord_of_mask (k := 6) h⟩
  · exact ⟨.txclr, (formatWord_noOperand 7 _).trans (formatWord_of_mask (n := 0) (k := 7) h)⟩
  · exact ⟨.snap, (formatWord_noOperand 8 _).trans (formatWord_of_mask (n := 0) (k := 8) h)⟩

/-! ### The legal words (R82) -/

/-- All values of `n` bits. -/
def allValues (n : Nat) : List (BitVec n) := (List.finRange (2 ^ n)).map BitVec.ofFin

theorem mem_allValues {n : Nat} (v : BitVec n) : v ∈ allValues n := List.mem_map.mpr ⟨v.toFin, List.mem_finRange _, rfl⟩

theorem length_allValues (n : Nat) : (allValues n).length = 2 ^ n := by simp [allValues]

theorem nodup_allValues (n : Nat) : (allValues n).Nodup :=
  (List.nodup_finRange _).map fun _ _ h => congrArg BitVec.toFin h

/-- R82: every command, in the order of the map. -/
def allInstrs : List Instr :=
  [.nop] ++ (allValues 4).map .enc ++ (allValues 7).map .dec ++ [.rxbit false, .rxbit true] ++ [.rxrst] ++
    (allValues 8).map .txput ++ (allValues 8).map .txbuild ++ [.txclr] ++ [.snap]

theorem mem_allInstrs (i : Instr) : i ∈ allInstrs := by
  cases i with
  | rxbit b => cases b <;> simp [allInstrs]
  | _ => simp [allInstrs, mem_allValues]

theorem nodup_allInstrs : allInstrs.Nodup := by
  have henc : ((allValues 4).map Instr.enc).Nodup := (nodup_allValues 4).map fun _ _ => Instr.enc.inj
  have hdec : ((allValues 7).map Instr.dec).Nodup := (nodup_allValues 7).map fun _ _ => Instr.dec.inj
  have htxput : ((allValues 8).map Instr.txput).Nodup := (nodup_allValues 8).map fun _ _ => Instr.txput.inj
  have htxbuild : ((allValues 8).map Instr.txbuild).Nodup := (nodup_allValues 8).map fun _ _ => Instr.txbuild.inj
  simp only [allInstrs, List.nodup_append, henc, hdec, htxput, htxbuild]
  simp [or_imp, forall_and]

theorem length_allInstrs : allInstrs.length = 662 := by
  simp [allInstrs, length_allValues]

end Sys2Proof.Machine

namespace Sys2Proof.Proofs

open Sys2Proof.Machine

/-- Settles O3: the word of each command decodes to it, and a legal word, being made of its operation code and its operand, is the
word of its command. -/
theorem decodeIsInverseOfEncode : Obligations.DecodeIsInverseOfEncode := decode_eq_ok_iff

/-- Settles O4: the word of a command selects the row of its mnemonic, the bits a row leaves open are the operand, and the operation
code tells the rows apart. -/
theorem decodeFollowsOpcodeMap : Obligations.DecodeFollowsOpcodeMap := by
  intro w
  refine ⟨⟨?_, ?_⟩, ?_, fun row hmem row' hmem' => row_unique hmem hmem'⟩
  · rintro ⟨i, hi⟩
    obtain rfl := encode_of_decode hi
    obtain ⟨row, hmem, -, hsel⟩ := encode_selects_row i
    exact ⟨row, hmem, hsel⟩
  · rintro ⟨row, hmem, hsel⟩
    obtain ⟨i, rfl⟩ := exists_encode_of_selects hmem hsel
    exact ⟨i, decode_encode i⟩
  · intro i row hmem hi hsel
    obtain rfl := encode_of_decode hi
    obtain ⟨row', hmem', hname, hsel'⟩ := encode_selects_row i
    rw [row_unique hmem hmem' hsel hsel', hname]

/-- Settles O7: the words of the commands, which differ from each other because each decodes to its own command. -/
theorem legalWordsAre662 : Obligations.LegalWordsAre662 := by
  refine ⟨allInstrs.map encode, nodup_allInstrs.map encode_injective, ?_, fun w => ?_⟩
  · rw [List.length_map, length_allInstrs]
  · simp only [List.mem_map, mem_allInstrs, true_and, decode_eq_ok_iff]

/-- Settles O5: a legal word is its command's word, whose value is the operation code followed by the operand. -/
theorem operandIsLowBitsOfWord : Obligations.OperandIsLowBitsOfWord := by
  intro w
  refine ⟨fun b h => ?_, fun n h => ?_, fun c h => ?_, fun v h => ?_, fun q h => ?_⟩
  · obtain rfl := encode_of_decode h
    cases b <;> exact ⟨rfl, rfl⟩
  · obtain rfl := encode_of_decode h
    exact formatWord_operand (k := 1) (by decide) (by decide) n
  · obtain rfl := encode_of_decode h
    exact formatWord_operand (k := 2) (by decide) (by decide) c
  · obtain rfl := encode_of_decode h
    exact formatWord_operand (k := 5) (by decide) (by decide) v
  · obtain rfl := encode_of_decode h
    exact formatWord_operand (k := 6) (by decide) (by decide) q

/-- Settles O8, by evaluating the decoder on each word. -/
theorem specWordsDecode : Obligations.SpecWordsDecode := by
  unfold Obligations.SpecWordsDecode
  decide

end Sys2Proof.Proofs
end

section
/-! PROOFS. The packet on the wire (spec/30_encoding.md Part A, R75): the lengths of its fields, and the place of each. -/

namespace Sys2Proof.Machine

/-! ### Lengths (R15, R72) -/

@[simp] theorem length_msbBits {n : Nat} (v : BitVec n) : (msbBits v).length = n := by simp [msbBits]

@[simp] theorem length_encByte (c : Cfg) (v : Byte) : (encByte c v).length = 14 := by simp [encByte]

@[simp] theorem length_flatMap_encByte (c : Cfg) (vs : List Byte) : (vs.flatMap (encByte c)).length = 14 * vs.length := by
  induction vs with
  | nil => rfl
  | cons v vs ih =>
    rw [List.flatMap_cons, List.length_append, length_encByte, ih, List.length_cons]
    omega

/-! ### Slices (R57) -/

/-- A part of a sequence is its slice at the place where the bits before it end. -/
theorem slice_of_append {s before part after : Bits} {p n : Nat} (hs : s = before ++ (part ++ after))
    (hp : before.length = p) (hn : part.length = n) : slice s p n = part := by
  subst hs hp hn
  rw [slice, List.drop_left, List.take_left]

/-! ### The packet (R75, R124) -/

/-- R124: the bits of a packet. -/
def packetBits (c : Cfg) (msg : List Byte) (q : Byte) : Bits :=
  msbBits c.preamble ++ msbBits c.startMarker ++ (mkhdr msg.length q ++ msg).flatMap (encByte c) ++ msbBits c.endMarker

/-- R124: a message of 1 to 255 bytes is built. -/
theorem build_of_length {c : Cfg} {msg : List Byte} (q : Byte) (h1 : 1 ≤ msg.length) (h255 : msg.length ≤ 255) :
    build c msg q = .ok (packetBits c msg q) :=
  if_neg (by rw [bufBytes]; omega)

/-- R75: the fields of a packet in order. -/
theorem packetBits_fields (c : Cfg) (msg : List Byte) (q : Byte) :
    packetBits c msg q = msbBits c.preamble ++ (msbBits c.startMarker ++ ((mkhdr msg.length q).flatMap (encByte c) ++
      (msg.flatMap (encByte c) ++ msbBits c.endMarker))) := by
  simp only [packetBits, List.flatMap_append, List.append_assoc]

@[simp] theorem length_mkhdr (len : Nat) (q : Byte) : (mkhdr len q).length = 4 := rfl

theorem length_packetBits (c : Cfg) (msg : List Byte) (q : Byte) : (packetBits c msg q).length = 88 + 14 * msg.length := by
  simp only [packetBits, List.length_append, length_msbBits, length_flatMap_encByte, length_mkhdr]
  omega

theorem slice_preamble (c : Cfg) (msg : List Byte) (q : Byte) : slice (packetBits c msg q) 0 16 = msbBits c.preamble :=
  slice_of_append (before := []) (packetBits_fields c msg q) rfl (length_msbBits _)

theorem slice_startMarker (c : Cfg) (msg : List Byte) (q : Byte) :
    slice (packetBits c msg q) 16 8 = msbBits c.startMarker :=
  slice_of_append (packetBits_fields c msg q) (length_msbBits _) (length_msbBits _)

theorem slice_header (c : Cfg) (msg : List Byte) (q : Byte) :
    slice (packetBits c msg q) 24 56 = (mkhdr msg.length q).flatMap (encByte c) :=
  slice_of_append ((packetBits_fields c msg q).trans (List.append_assoc _ _ _).symm) (by simp) (by simp)

/-- The byte after `before` in a message stands after the encoding of `before` in its packet. -/
theorem slice_payloadByte (c : Cfg) (before after : List Byte) (v q : Byte) :
    slice (packetBits c (before ++ v :: after) q) (80 + 14 * before.length) 14 = encByte c v := by
  refine slice_of_append (before := msbBits c.preamble ++ msbBits c.startMarker ++
    (mkhdr (before ++ v :: after).length q ++ before).flatMap (encByte c))
    (after := after.flatMap (encByte c) ++ msbBits c.endMarker) ?_ ?_ (length_encByte c v)
  · simp only [packetBits, List.flatMap_append, List.flatMap_cons, List.append_assoc]
  · simp only [List.length_append, length_msbBits, length_flatMap_encByte, length_mkhdr]
    omega

theorem slice_endMarker (c : Cfg) (msg : List Byte) (q : Byte) :
    slice (packetBits c msg q) (80 + 14 * msg.length) 8 = msbBits c.endMarker := by
  refine slice_of_append (after := []) (by rw [List.append_nil, packetBits]) ?_ (length_msbBits _)
  simp only [List.length_append, length_msbBits, length_flatMap_encByte, length_mkhdr]
  omega

end Sys2Proof.Machine

namespace Sys2Proof.Proofs

open Sys2Proof.Machine

/-- Settles O30: each field is the slice at the place where the fields before it end. -/
theorem packetFieldsOnTheWire : Obligations.PacketFieldsOnTheWire := by
  intro c msg q h1 h255
  refine ⟨packetBits c msg q, build_of_length q h1 h255, length_packetBits c msg q, slice_preamble c msg q,
    slice_startMarker c msg q, ?_, fun i v hv => ?_, slice_endMarker c msg q⟩
  · rw [slice_header, mkhdr]
    simp only [List.flatMap_cons, List.flatMap_nil, List.append_nil, List.append_assoc]
  · obtain ⟨hi, rfl⟩ := List.getElem?_eq_some_iff.mp hv
    have hsplit : msg = msg.take i ++ msg[i] :: msg.drop (i + 1) := by
      rw [← List.drop_eq_getElem_cons hi, List.take_append_drop]
    have hlen : (msg.take i).length = i := List.length_take_of_le hi.le
    have hslice := slice_payloadByte c (msg.take i) (msg.drop (i + 1)) msg[i] q
    rwa [← hsplit, hlen] at hslice

end Sys2Proof.Proofs
end

section
/-! PROOFS. The assembler (spec/30_encoding.md Part C, R86, R87): an operand that fits its field is the field, and a pseudo-instruction
is the commands of its fields. -/

namespace Sys2Proof.Machine

/-- R86: a value of `n` bits fits `n` bits, as itself. -/
@[simp] theorem asmOperand_toNat {n : Nat} (v : BitVec n) : asmOperand n v.toNat = some v := by
  rw [asmOperand, if_pos v.isLt, BitVec.ofNat_toNat, BitVec.setWidth_eq]

/-- R87: one `TXPUT` for each byte. -/
theorem asmPuts_map_toNat (vs : List Byte) : asmPuts (vs.map BitVec.toNat) = some (vs.map .txput) := by
  induction vs with
  | nil => rfl
  | cons v vs ih => simp only [List.map_cons, asmPuts, asmOperand_toNat, ih]

/-- R86: a command line with an operand of `n` bits is the command `f` of that operand when it fits, and an error otherwise. -/
theorem expand_operand {m : String} {n v : Nat} {f : BitVec n → Instr} (h : asmCommand m (some v) = (asmOperand n v).map f) :
    (AsmLine.command m (some v)).expand = if v < 2 ^ n then some [f (BitVec.ofNat n v)] else none := by
  simp only [AsmLine.expand, h, asmOperand]
  split <;> rfl

end Sys2Proof.Machine

namespace Sys2Proof.Proofs

open Sys2Proof.Machine

/-- Settles O59: operands that are values of their fields are taken as those values, by induction on the bytes of `TXMSG`. -/
theorem pseudoInstructionsExpand : Obligations.PseudoInstructionsExpand := by
  refine ⟨fun s => rfl, fun n h => ?_, fun q vs => ?_⟩
  · simp only [AsmLine.expand, asmOperand_toNat, Option.map_some]
  · simp only [AsmLine.expand, asmOperand_toNat, asmPuts_map_toNat]

/-- Settles O60: the width of each command's operand decides, and no row of the assembler has an operand for the other four. -/
theorem assemblerOperandsMustFit : Obligations.AssemblerOperandsMustFit := by
  intro v
  have hbit : v < 2 → (BitVec.ofNat 1 v).getLsbD 0 = (v == 1) := fun hv => by interval_cases v <;> rfl
  refine ⟨?_, expand_operand (n := 4) rfl, expand_operand (n := 7) rfl, expand_operand (n := 8) rfl,
    expand_operand (n := 8) rfl, ?_⟩
  · exact (expand_operand (n := 1) rfl).trans (ite_congr rfl (fun hv => by rw [hbit hv]) fun _ => rfl)
  · intro m hm
    simp only [List.mem_cons, List.not_mem_nil, or_false] at hm
    obtain rfl | rfl | rfl | rfl := hm <;> rfl

end Sys2Proof.Proofs
end

section
/-! PROOFS. The codec (spec/40_hamming_codec.md): the bits of a codeword and of a syndrome (R101, R104), the code's linearity and
distance (R103), and from them what `dec` makes of no, one, two and three flipped bits (R106, R108, R109). -/

namespace Sys2Proof.Machine

/-! ### Distance (R14) -/

theorem popcount_xor_le {n : Nat} (v w : BitVec n) : popcount (v ^^^ w) ≤ popcount v + popcount w := by
  unfold popcount
  induction List.range n with
  | nil => exact Nat.le_refl _
  | cons i l ih =>
    have hbit : ∀ x y : Bool, (if (x ^^ y) = true then 1 else 0) ≤ (if x = true then 1 else 0) + if y = true then 1 else 0 := by
      decide
    have hi := hbit (v.getLsbD i) (w.getLsbD i)
    simp only [List.countP_cons, BitVec.getLsbD_xor]
    omega

theorem hd_comm {n : Nat} (a b : BitVec n) : hd a b = hd b a := congrArg popcount (BitVec.xor_comm a b)

theorem hd_triangle {n : Nat} (a b c : BitVec n) : hd a c ≤ hd a b + hd b c := by
  have hsum : a ^^^ c = (a ^^^ b) ^^^ (b ^^^ c) := by
    rw [BitVec.xor_assoc, ← BitVec.xor_assoc b, BitVec.xor_self, BitVec.zero_xor]
  simpa only [hd, hsum] using popcount_xor_le (a ^^^ b) (b ^^^ c)

/-- A value is as far from itself with an error as the error has bits. -/
theorem hd_xor_right {n : Nat} (a e : BitVec n) : hd a (a ^^^ e) = popcount e := by
  rw [hd, ← BitVec.xor_assoc, BitVec.xor_self, BitVec.zero_xor]

theorem popcount_oneBit : ∀ i, i < 7 → popcount (oneBit i) = 1 := by decide

theorem popcount_twoBits : ∀ i, i < 7 → ∀ j, j < 7 → i ≠ j → popcount (oneBit i ^^^ oneBit j) = 2 := by decide

theorem popcount_threeBits : ∀ i, i < 7 → ∀ j, j < 7 → ∀ k, k < 7 → i ≠ j ∧ k ≠ i ∧ k ≠ j →
    popcount (oneBit i ^^^ oneBit j ^^^ oneBit k) = 3 := by decide

/-- Weight below 3 is no bit, one bit or two bits. -/
theorem bits_of_popcount_lt_three : ∀ e : Codeword, popcount e < 3 →
    e = 0 ∨ (∃ i, i < 7 ∧ e = oneBit i) ∨ ∃ i, i < 7 ∧ ∃ j, j < 7 ∧ i ≠ j ∧ e = oneBit i ^^^ oneBit j := by decide

/-! ### The bits of a codeword (R70, R71, R101) -/

theorem parity_eq_true_iff {n : Nat} (v : BitVec n) : parity v = true ↔ popcount v % 2 = 1 := beq_iff_eq

theorem dataBits_getLsbD (w : Codeword) {j : Nat} (hj : j < 4) : (dataBits w).getLsbD j = w.getLsbD (3 + j) := by
  simp [dataBits, hj]

theorem enc_getLsbD_data (c : Cfg) (d : Nibble) {j : Nat} (hj : j < 4) : (enc c d).getLsbD (3 + j) = d.getLsbD j := by
  rw [← dataBits_getLsbD _ hj, dataBits_enc]

theorem enc_getLsbD_parity (c : Cfg) (d : Nibble) :
    (enc c d).getLsbD 0 = parityBit c d 0 ∧ (enc c d).getLsbD 1 = parityBit c d 1 ∧ (enc c d).getLsbD 2 = parityBit c d 2 :=
  enc_low_bits d _ _ _

/-- R71, R102: the parities under `cfg0` as exclusive ors of data bits. -/
theorem parityBit_cfg0 : ∀ d : Nibble,
    parityBit cfg0 d 2 = ((d.getLsbD 3 ^^ d.getLsbD 2) ^^ d.getLsbD 1) ∧
    parityBit cfg0 d 1 = ((d.getLsbD 3 ^^ d.getLsbD 2) ^^ d.getLsbD 0) ∧
    parityBit cfg0 d 0 = ((d.getLsbD 3 ^^ d.getLsbD 1) ^^ d.getLsbD 0) := by decide

/-! ### The bits of a syndrome (R104) -/

theorem syn_getLsbD (c : Cfg) (w : Codeword) {i : Nat} (hi : i < 3) : (syn c w).getLsbD i = synBit c w i := by
  have hbits : ∀ x y z : Bool,
      (BitVec.ofBool x ++ BitVec.ofBool y ++ BitVec.ofBool z).getLsbD 0 = z ∧
      (BitVec.ofBool x ++ BitVec.ofBool y ++ BitVec.ofBool z).getLsbD 1 = y ∧
      (BitVec.ofBool x ++ BitVec.ofBool y ++ BitVec.ofBool z).getLsbD 2 = x := by decide
  obtain ⟨h0, h1, h2⟩ := hbits (synBit c w 2) (synBit c w 1) (synBit c w 0)
  interval_cases i
  · exact h0
  · exact h1
  · exact h2

theorem syn_cfg0 (w : Codeword) :
    syn cfg0 w = BitVec.ofBool (((w.getLsbD 6 ^^ w.getLsbD 5) ^^ w.getLsbD 4) ^^ w.getLsbD 2) ++
      BitVec.ofBool (((w.getLsbD 6 ^^ w.getLsbD 5) ^^ w.getLsbD 3) ^^ w.getLsbD 1) ++
      BitVec.ofBool (((w.getLsbD 6 ^^ w.getLsbD 4) ^^ w.getLsbD 3) ^^ w.getLsbD 0) := by
  obtain ⟨h2, h1, h0⟩ := parityBit_cfg0 (dataBits w)
  simp only [syn, synBit, h2, h1, h0, dataBits_getLsbD w (show 0 < 4 by decide), dataBits_getLsbD w (show 1 < 4 by decide),
    dataBits_getLsbD w (show 2 < 4 by decide), dataBits_getLsbD w (show 3 < 4 by decide)]

theorem syn_eq_zero_iff (c : Cfg) (w : Codeword) : syn c w = 0 ↔ ∃ d, w = enc c d := by
  constructor
  · exact fun h => ⟨dataBits w, (enc_dataBits_of_syn c w h).symm⟩
  · rintro ⟨d, rfl⟩
    exact syn_enc c d

/-- The syndrome of a damaged codeword is the syndrome of the damage. -/
theorem syn_enc_xor (c : Cfg) (d : Nibble) (e : Codeword) : syn c (enc c d ^^^ e) = syn c e := by
  rw [syn_xor, syn_enc]
  exact BitVec.zero_xor

/-- Two different columns do not cancel. -/
theorem syn_twoBits_ne_zero {c : Cfg} (h : c.wf = true) {i j : Nat} (hi : i < 7) (hj : j < 7) (hne : i ≠ j) :
    syn c (oneBit i ^^^ oneBit j) ≠ 0 := by
  rw [syn_xor]
  exact fun he => hne (syn_oneBit_inj h hi hj (BitVec.xor_eq_zero_iff.mp he))

/-! ### Linearity and minimum distance (R103) -/

/-- The exclusive or of two codewords has syndrome zero, so it is the codeword of its data bits. -/
theorem enc_xor (c : Cfg) (a b : Nibble) : enc c (a ^^^ b) = enc c a ^^^ enc c b := by
  have hs : syn c (enc c a ^^^ enc c b) = 0 := (syn_enc_xor c a _).trans (syn_enc c b)
  simpa only [dataBits_xor, dataBits_enc] using enc_dataBits_of_syn c _ hs

/-- An error of weight 1 or 2 is a column, or the sum of two different ones, and shows in the syndrome. -/
theorem three_le_popcount_of_syn {c : Cfg} (h : c.wf = true) {e : Codeword} (hs : syn c e = 0) (he : e ≠ 0) :
    3 ≤ popcount e := by
  refine Nat.le_of_not_lt fun hlt => ?_
  obtain rfl | ⟨i, hi, rfl⟩ | ⟨i, hi, j, hj, hne, rfl⟩ := bits_of_popcount_lt_three e hlt
  · exact he rfl
  · exact syn_oneBit_ne_zero h hi hs
  · exact syn_twoBits_ne_zero h hi hj hne hs

theorem enc_injective (c : Cfg) : Function.Injective (enc c) := fun a b h => by
  rw [← dataBits_enc c a, h, dataBits_enc]

theorem three_le_hd_enc {c : Cfg} (h : c.wf = true) {a b : Nibble} (hne : a ≠ b) : 3 ≤ hd (enc c a) (enc c b) :=
  three_le_popcount_of_syn h ((syn_enc_xor c a _).trans (syn_enc c b))
    fun he => hne (enc_injective c (BitVec.xor_eq_zero_iff.mp he))

/-! ### What `dec` answers (R106) -/

/-- `dec` answers the nibble of the received bits, or of the received bits with one bit flipped, and those are a codeword. -/
theorem enc_nibble_of_dec {c : Cfg} {w : Codeword} {r : DecResult} (h : dec c w = some r) :
    w = enc c r.nibble ∨ ∃ i, i < 7 ∧ w = enc c r.nibble ^^^ oneBit i := by
  obtain ⟨hs, rfl⟩ | ⟨-, i, hi, hs, rfl⟩ := dec_cases h
  · exact .inl (enc_dataBits_of_syn c w hs).symm
  · have hclean : syn c (w ^^^ oneBit i) = 0 := by
      rw [syn_xor, hs]
      exact BitVec.xor_self
    refine .inr ⟨i, hi, ?_⟩
    rw [enc_dataBits_of_syn c _ hclean, BitVec.xor_assoc, BitVec.xor_self, BitVec.xor_zero]

theorem hd_enc_nibble_le_one {c : Cfg} {w : Codeword} {r : DecResult} (h : dec c w = some r) :
    hd (enc c r.nibble) w ≤ 1 := by
  obtain hw | ⟨i, hi, hw⟩ := enc_nibble_of_dec h
  · rw [← hw, hd, BitVec.xor_self]
    exact Nat.zero_le 1
  · exact (hw ▸ (hd_xor_right (enc c r.nibble) (oneBit i)).trans (popcount_oneBit i hi)).le

/-- A nibble whose codeword had two or more bits flipped is not the one `dec` answers. -/
theorem dec_nibble_ne {c : Cfg} {n : Nibble} {e : Codeword} {r : DecResult} (h : dec c (enc c n ^^^ e) = some r)
    (he : 2 ≤ popcount e) : r.nibble ≠ n := by
  rintro rfl
  have hle := hd_enc_nibble_le_one h
  rw [hd_xor_right] at hle
  omega

/-- Whether `dec` reports a correction is decided by the syndrome alone. -/
theorem dec_report {c : Cfg} {w : Codeword} {r : DecResult} (h : dec c w = some r) :
    r = if syn c w = 0 then ⟨r.nibble, false, .zero⟩ else ⟨r.nibble, true, .one⟩ := by
  obtain ⟨hs, rfl⟩ | ⟨hs, i, -, -, rfl⟩ := dec_cases h
  · rw [if_pos hs]
  · rw [if_neg hs]

theorem dec_enc (c : Cfg) (n : Nibble) : dec c (enc c n) = some ⟨n, false, .zero⟩ := by
  rw [dec, if_pos (syn_enc c n), dataBits_enc]

theorem dec_oneFlip {c : Cfg} (h : c.wf = true) (n : Nibble) {i : Nat} (hi : i < 7) :
    dec c (enc c n ^^^ oneBit i) = some ⟨n, true, .one⟩ := by
  rw [dec_of_column h hi (syn_enc_xor c n _), BitVec.xor_assoc, BitVec.xor_self, BitVec.xor_zero, dataBits_enc]

/-- R109: two or more flips give a wrong nibble, reported as the syndrome of the flips has it. -/
theorem dec_manyFlips {c : Cfg} (h : c.wf = true) (n : Nibble) {e : Codeword} (he : 2 ≤ popcount e) :
    ∃ m, m ≠ n ∧
      dec c (enc c n ^^^ e) = some (if syn c e = 0 then ⟨m, false, .zero⟩ else ⟨m, true, .one⟩) := by
  obtain ⟨r, hr⟩ := dec_total h (enc c n ^^^ e)
  have hrep := dec_report hr
  rw [syn_enc_xor] at hrep
  exact ⟨r.nibble, dec_nibble_ne hr he, hr.trans (congrArg some hrep)⟩

/-- R109: two flips are taken for one. The answer is another codeword, at most one bit from the received bits, so at distance 3. -/
theorem dec_twoFlips {c : Cfg} (h : c.wf = true) (n : Nibble) {i j : Nat} (hi : i < 7) (hj : j < 7) (hne : i ≠ j) :
    ∃ m, m ≠ n ∧ dec c (enc c n ^^^ (oneBit i ^^^ oneBit j)) = some ⟨m, true, .one⟩ ∧ hd (enc c m) (enc c n) = 3 := by
  have he := popcount_twoBits i hi j hj hne
  obtain ⟨m, hm, hr⟩ := dec_manyFlips h n he.ge
  rw [if_neg (syn_twoBits_ne_zero h hi hj hne)] at hr
  have hsent : hd (enc c n ^^^ (oneBit i ^^^ oneBit j)) (enc c n) = 2 := by rw [hd_comm, hd_xor_right, he]
  have hanswer : hd (enc c m) (enc c n ^^^ (oneBit i ^^^ oneBit j)) ≤ 1 :=
    hd_enc_nibble_le_one (r := ⟨m, true, .one⟩) hr
  have hpath := hd_triangle (enc c m) (enc c n ^^^ (oneBit i ^^^ oneBit j)) (enc c n)
  have hleast := three_le_hd_enc h hm
  exact ⟨m, hm, hr, by omega⟩

/-! ### Where `pos` and `dec` have no answer (R105; log 5) -/

theorem pos_eq_none_iff (c : Cfg) (s : Syndrome) : pos c s = none ↔ ∀ i, i < 7 → syn c (oneBit i) ≠ s := by
  simp [pos, List.find?_eq_none]

theorem dec_eq_none_iff (c : Cfg) (w : Codeword) :
    dec c w = none ↔ syn c w ≠ 0 ∧ ∀ i, i < 7 → syn c (oneBit i) ≠ syn c w := by
  rw [← pos_eq_none_iff]
  by_cases hs : syn c w = 0
  · simp [dec, hs]
  · rw [dec, if_neg hs]
    cases pos c (syn c w) with
    | none => exact iff_of_true rfl ⟨hs, rfl⟩
    | some i => exact iff_of_false nofun fun h => nomatch h.2

theorem execDec_fault (c : Codeword) (s : State) (f : Fault) :
    exec (.dec c) s = .fault f ↔ f = .cfgIllFormed ∧ dec s.cfg c = none := by
  simp only [exec, execDec]
  cases dec s.cfg c with
  | none => simp [eq_comm]
  | some r => simp

/-! ### The response of an emission (R147) -/

theorem eventResponse_eq_packet {ev : Event} {pkt : DecodedPacket} (h : eventResponse ev = .packet pkt) :
    ev = .packetEmitted pkt := by
  cases ev with
  | packetEmitted p => exact congrArg Event.packetEmitted (Response.packet.inj h)
  | headerCorrupt => exact absurd h nofun
  | endMarkerMismatch => exact absurd h nofun

end Sys2Proof.Machine

namespace Sys2Proof.Proofs

open Sys2Proof.Machine

/-- Settles O16, from the bits of a codeword; the answers under `cfg0` are evaluated. -/
theorem encRespondsCodeword : Obligations.EncRespondsCodeword := by
  intro n s
  obtain ⟨h0, h1, h2⟩ := enc_getLsbD_parity s.cfg n
  refine ⟨enc s.cfg n, (execEnc_next n s _).mpr rfl, fun j hj => enc_getLsbD_data s.cfg n hj, ?_, ?_, ?_, fun hc => ?_⟩
  · exact h2 ▸ parity_eq_true_iff _
  · exact h1 ▸ parity_eq_true_iff _
  · exact h0 ▸ parity_eq_true_iff _
  · rw [h2, h1, h0, hc]
    obtain ⟨p2, p1, p0⟩ := parityBit_cfg0 n
    exact ⟨p2, p1, p0, fun hn => hn ▸ rfl, fun hn => hn ▸ rfl, fun hn => hn ▸ rfl⟩

/-- Settles O17: the table under `cfg0` is evaluated, linearity and the least distance are lemmas, and two flips of the codeword of
0 lead to a codeword at distance 3. -/
theorem codeIsLinearOfDistanceThree : Obligations.CodeIsLinearOfDistanceThree := by
  refine ⟨by decide, fun w => ?_, fun c hc => ⟨enc_xor c, fun a b => three_le_hd_enc hc, ?_⟩⟩
  · have hweights : (List.range 16).map (fun n => popcount (enc cfg0 (BitVec.ofNat 4 n))) =
        [0, 3, 3, 4, 3, 4, 4, 3, 4, 3, 3, 4, 3, 4, 4, 7] := by decide
    have hcount : (List.range 16).countP (fun n => popcount (enc cfg0 (BitVec.ofNat 4 n)) == w) =
        [0, 3, 3, 4, 3, 4, 4, 3, 4, 3, 3, 4, 3, 4, 4, 7].count w := by
      rw [← hweights, List.count, List.countP_map]
      rfl
    rw [hcount]
    by_cases hw : w < 8
    · interval_cases w <;> rfl
    · rw [List.count_eq_zero_of_not_mem (by simp; omega), if_neg (by omega), if_neg (by omega)]
  · obtain ⟨m, hm, -, hd3⟩ := dec_twoFlips hc 0 (i := 0) (j := 1) (by decide) (by decide) (by decide)
    exact ⟨m, 0, hm, hd3⟩

/-- Settles O18. -/
theorem syndromeDependsOnErrorAlone : Obligations.SyndromeDependsOnErrorAlone := fun c w =>
  ⟨fun _ hi => syn_getLsbD c w hi, syn_eq_zero_iff c w, syn_xor c w, syn_enc_xor c, fun hc => hc ▸ syn_cfg0 w⟩

/-- Settles O19: `pos` answers a bit of the column, and no other bit has that column. -/
theorem posIsTheBitOfTheColumn : Obligations.PosIsTheBitOfTheColumn := by
  refine ⟨fun c hc s hs => ?_, by decide⟩
  obtain ⟨i, hp⟩ := pos_of_ne_zero hc hs
  obtain ⟨hi, hsyn⟩ := pos_eq_some hp
  refine ⟨i, hi, hp, fun j hj => ⟨fun hj' => syn_oneBit_inj hc hj hi (hj'.trans hsyn.symm), ?_⟩⟩
  rintro rfl
  exact hsyn

/-- Settles O20, by the two answers `dec` can give. -/
theorem decRespondsCorrectedNibble : Obligations.DecRespondsCorrectedNibble := by
  intro c s hc
  obtain ⟨r, hr⟩ := dec_total hc c
  have hnext := (execDec_next c s _).mpr ⟨r, hr, rfl⟩
  have hcfg0 : s.cfg = cfg0 → c = 0x5D → r = ⟨0xB, true, .one⟩ := by
    rintro hcfg rfl
    rw [hcfg] at hr
    exact Option.some.inj (hr.symm.trans (by decide))
  obtain ⟨hzero, h⟩ | ⟨hne, h⟩ := dec_cases hr
  · exact ⟨r, hnext, fun _ => h, fun hne => absurd hzero hne, hcfg0⟩
  · exact ⟨r, hnext, fun hzero => absurd hzero hne, fun _ => h, hcfg0⟩

/-- Settles O21: `dec` tells a clean codeword and its single flips apart, and gives back the nibble they came from. -/
theorem decUndoesEverySingleFlip : Obligations.DecUndoesEverySingleFlip := by
  refine fun c hc => ⟨dec_enc c, fun n i hi => dec_oneFlip hc n hi, fun w => ?_,
    fun n m i j hi hj => ⟨fun he => ?_, fun he => ?_⟩⟩
  · obtain ⟨r, hr⟩ := dec_total hc w
    exact ⟨r.nibble, enc_nibble_of_dec hr⟩
  · exact absurd ((dec_oneFlip hc n hi).symm.trans ((congrArg (dec c) he).trans (dec_enc c m))) (by simp)
  · have hsame := (dec_oneFlip hc n hi).symm.trans ((congrArg (dec c) he).trans (dec_oneFlip hc m hj))
    have hsyn : syn c (oneBit i) = syn c (oneBit j) := by
      calc syn c (oneBit i) = syn c (enc c n ^^^ oneBit i) := (syn_enc_xor c n _).symm
        _ = syn c (enc c m ^^^ oneBit j) := congrArg (syn c) he
        _ = syn c (oneBit j) := syn_enc_xor c m _
    exact ⟨congrArg DecResult.nibble (Option.some.inj hsame), syn_oneBit_inj hc hi hj hsyn⟩

/-- Settles O22: the answer lies within one bit of the received bits, and the codeword sent does not. -/
theorem decMiscorrectsTwoAndThreeFlips : Obligations.DecMiscorrectsTwoAndThreeFlips := by
  refine ⟨fun c hc n i j hi hj hne => ⟨?_, fun k hk hki hkj => ?_⟩, by decide⟩
  · rw [BitVec.xor_assoc]
    exact dec_twoFlips hc n hi hj hne
  · have he := popcount_threeBits i hi j hj k hk ⟨hne, hki, hkj⟩
    rw [BitVec.xor_assoc, BitVec.xor_assoc, ← BitVec.xor_assoc (1#7 <<< i), ← syn_xor, ← syn_xor]
    exact dec_manyFlips hc n ((Nat.le_succ 2).trans he.ge)

/-- Settles O23: `dec` has two answers, and an emitted packet takes its flag from `unc`, which the invariant keeps clear (R37 (e)). -/
theorem uncertainIsNeverReported : Obligations.UncertainIsNeverReported := by
  refine ⟨fun c w r h => ?_, fun s t b pkt hinv hx hresp => ?_⟩
  · obtain ⟨-, rfl⟩ | ⟨-, _, -, -, rfl⟩ := dec_cases h <;> exact nofun
  · obtain ⟨_, -, rfl⟩ | ⟨r, ev, _, hstep, -, rfl⟩ := (execRxbit_next b s t).mp hx
    · exact absurd hresp nofun
    · obtain rfl := eventResponse_eq_packet (Option.some.inj hresp)
      obtain ⟨-, -, -, payload, -, rfl⟩ := rxStep_emits hstep
      exact hinv.rx.unc_clear

/-- Settles O24: `DEC` stops where `dec` has no answer. -/
theorem decStopsOnlyWithoutColumn : Obligations.DecStopsOnlyWithoutColumn := fun c s f =>
  (execDec_fault c s f).trans (and_congr_right' (dec_eq_none_iff s.cfg c))

end Sys2Proof.Proofs
end

section
/-! PROOFS. The transmit framer (spec/41_tx_framer.md): what staging holds after a run of `TXPUT` (R122), what `TXBUILD` makes of a
staged message (R125), and that the transmit and the receive side share no register (R127). -/

namespace Sys2Proof.Machine

/-! ### `TXPUT` (R122) -/

/-- R32: below the overflow mark `txlen` counts without wrapping. -/
theorem txlen_succ {n : BitVec 9} (h : n.toNat ≤ 254) : (n + 1).toNat = n.toNat + 1 := by bv_omega

/-- R122: a byte offered where `TXBUF` has room is stored at `TXBUF[txlen]` and counted. -/
theorem execTxput_of_room {s : State} (v : Byte) (h : s.tx.txlen.toNat ≤ 254) :
    exec (.txput v) s = .next { s with
      tx := { txlen := s.tx.txlen + 1, txbuf := Cells.set s.tx.txbuf s.tx.txlen.toNat v }, resp := some .ok } :=
  (execTxput_next v s _).mpr (.inl ⟨h, rfl⟩)

/-- R122: any other byte is dropped and leaves the overflow mark. -/
theorem execTxput_of_full {s : State} (v : Byte) (h : 254 < s.tx.txlen.toNat) :
    exec (.txput v) s = .next { s with tx := { s.tx with txlen := 256 }, resp := some .ok } :=
  (execTxput_next v s _).mpr (.inr ⟨h, rfl⟩)

/-! ### The staged message (R32, R33) -/

/-- Staging after the bytes of `msg` were offered to it, none before them: all of them are there, or the overflow mark is. -/
structure Staged (x : Txf) (msg : List Byte) : Prop where
  txlen_eq : x.txlen.toNat = min msg.length 256
  txbuf_eq : msg.length ≤ 255 → ∀ i, i < msg.length → x.txbuf.get? i = msg[i]?

/-- R121: an empty staging has been offered nothing. -/
theorem staged_nil (m : Memory) : Staged { txlen := 0, txbuf := m } [] :=
  ⟨rfl, fun _ _ hi => absurd hi (Nat.not_lt_zero _)⟩

/-- R122: `TXPUT v` offers `v` after what was offered before. -/
theorem execTxput_staged {s : State} {msg : List Byte} (h : Staged s.tx msg) (v : Byte) :
    ∃ x, exec (.txput v) s = .next { s with tx := x, resp := some .ok } ∧ Staged x (msg ++ [v]) := by
  have hlen := h.txlen_eq
  have hgrow : (msg ++ [v]).length = msg.length + 1 := List.length_append
  by_cases hroom : s.tx.txlen.toNat ≤ 254
  · have hend : s.tx.txlen.toNat = msg.length := by omega
    refine ⟨_, execTxput_of_room v hroom, (txlen_succ hroom).trans (by omega), fun _ i hi => ?_⟩
    rw [Memory.get?_set, hend]
    split
    · next heq => rw [heq, List.getElem?_concat_length]
    · have hold : i < msg.length := by omega
      rw [List.getElem?_append_left hold]
      exact h.txbuf_eq (by omega) i hold
  · have hmark : 256 = min (msg ++ [v]).length 256 := by omega
    exact ⟨_, execTxput_of_full v (by omega), hmark, fun hle => absurd hle (by omega)⟩

/-- R122: one `TXPUT` for each byte of `msg` offers `msg` after what was offered before, and touches nothing but staging. -/
theorem execAll_txputs_staged {s : State} {before : List Byte} (h : Staged s.tx before) (msg : List Byte) :
    ∃ x v, execAll (msg.map .txput) s = .next { s with tx := x, resp := v } ∧ Staged x (before ++ msg) := by
  induction msg generalizing s before with
  | nil => exact ⟨s.tx, s.resp, rfl, (List.append_nil before).symm ▸ h⟩
  | cons b msg ih =>
    obtain ⟨x, hput, hx⟩ := execTxput_staged h b
    obtain ⟨y, v, hrun, hy⟩ := ih (s := { s with tx := x, resp := some .ok }) hx
    exact ⟨y, v, (execAll_cons_next _ _ _ _).mpr ⟨_, hput, hrun⟩, List.append_cons before b msg ▸ hy⟩

/-! ### `TXBUILD` (R125) -/

/-- R125, R195: nothing offered, or more than 255 bytes, is refused. -/
theorem execTxbuild_of_refused {s : State} {msg : List Byte} (h : Staged s.tx msg) (q : Byte)
    (hlen : msg.length = 0 ∨ 255 < msg.length) :
    exec (.txbuild q) s = .next { clearStaging s with resp := some (.error .invalidPayloadSize) } := by
  have hmin := h.txlen_eq
  exact (execTxbuild_next q s _).mpr (.inl ⟨(txlen_refused_iff _).mpr (by omega), rfl⟩)

/-- R125: a message of 1 to 255 bytes is sent as its packet. -/
theorem execTxbuild_of_staged {s : State} {msg : List Byte} (h : Staged s.tx msg) (q : Byte) (h1 : 1 ≤ msg.length)
    (h255 : msg.length ≤ 255) :
    exec (.txbuild q) s = .next { clearStaging s with resp := some (.bits (packetBits s.cfg msg q)) } := by
  have hlen : s.tx.txlen.toNat = msg.length := by rw [h.txlen_eq]; omega
  have hload : s.tx.txbuf.load s.tx.txlen.toNat = .ok msg :=
    hlen ▸ (Memory.load_ok_iff _ _ _).mpr ⟨h255, rfl, h.txbuf_eq h255⟩
  have haccepted : ¬ (s.tx.txlen = 0 ∨ s.tx.txlen = 256) := by rw [txlen_refused_iff]; omega
  exact (execTxbuild_next q s _).mpr (.inr ⟨haccepted, msg, hload, .inl ⟨_, build_of_length q h1 h255, rfl⟩⟩)

/-! ### The two sides of the device (R127) -/

/-- R121, R122, R125: the transmit commands do the same whatever `RXF` and `STAT` hold, and leave both alone. -/
theorem exec_transmit_independent {i : Instr} {s t : State} (hi : i = .txclr ∨ (∃ v, i = .txput v) ∨ ∃ q, i = .txbuild q)
    (h : exec i s = .next t) :
    t.rx = s.rx ∧ t.stat = s.stat ∧
      ∀ (r : Rxf) (u : Stat), exec i { s with rx := r, stat := u } = .next { t with rx := r, stat := u } := by
  obtain rfl | ⟨v, rfl⟩ | ⟨q, rfl⟩ := hi
  · obtain rfl := (execTxclr_next s t).mp h
    exact ⟨rfl, rfl, fun _ _ => rfl⟩
  · obtain ⟨hroom, rfl⟩ | ⟨hfull, rfl⟩ := (execTxput_next v s t).mp h
    · exact ⟨rfl, rfl, fun _ _ => execTxput_of_room v hroom⟩
    · exact ⟨rfl, rfl, fun _ _ => execTxput_of_full v hfull⟩
  · obtain ⟨hlen, rfl⟩ | ⟨hlen, msg, hl, ⟨bits, hb, rfl⟩ | ⟨e, hb, rfl⟩⟩ := (execTxbuild_next q s t).mp h
    · exact ⟨rfl, rfl, fun _ _ => (execTxbuild_next q _ _).mpr (.inl ⟨hlen, rfl⟩)⟩
    · exact ⟨rfl, rfl, fun _ _ => (execTxbuild_next q _ _).mpr (.inr ⟨hlen, msg, hl, .inl ⟨bits, hb, rfl⟩⟩)⟩
    · exact ⟨rfl, rfl, fun _ _ => (execTxbuild_next q _ _).mpr (.inr ⟨hlen, msg, hl, .inr ⟨e, hb, rfl⟩⟩)⟩

/-- R141, R147, R160, R184: the receive commands and `SNAP` do the same whatever staging holds, and leave it alone. -/
theorem exec_receive_independent {i : Instr} {s t : State} (hi : i = .nop ∨ (∃ b, i = .rxbit b) ∨ i = .rxrst ∨ i = .snap)
    (h : exec i s = .next t) : t.tx = s.tx ∧ ∀ x : Txf, exec i { s with tx := x } = .next { t with tx := x } := by
  obtain rfl | ⟨b, rfl⟩ | rfl | rfl := hi
  · obtain rfl := (execNop_next s t).mp h
    exact ⟨rfl, fun _ => rfl⟩
  · obtain ⟨r, hr, rfl⟩ | ⟨r, ev, u, hr, hu, rfl⟩ := (execRxbit_next b s t).mp h
    · exact ⟨rfl, fun _ => (execRxbit_next b _ _).mpr (.inl ⟨r, hr, rfl⟩)⟩
    · exact ⟨rfl, fun _ => (execRxbit_next b _ _).mpr (.inr ⟨r, ev, u, hr, hu, rfl⟩)⟩
  · obtain rfl := (execRxrst_next s t).mp h
    exact ⟨rfl, fun _ => rfl⟩
  · obtain rfl := (execSnap_next s t).mp h
    exact ⟨rfl, fun _ => rfl⟩

end Sys2Proof.Machine

namespace Sys2Proof.Proofs

open Sys2Proof.Machine

/-- Settles O25. -/
theorem txclrEmptiesStaging : Obligations.TxclrEmptiesStaging := fun s => (execTxclr_next s _).mpr rfl

/-- Settles O26: the two cases of `TXPUT`, with the law of the byte store for the first. -/
theorem txputStagesOneByte : Obligations.TxputStagesOneByte := by
  refine fun v s => ⟨fun hroom => ?_, execTxput_of_full v⟩
  exact ⟨_, execTxput_of_room v hroom, txlen_succ hroom, by rw [Memory.get?_set, if_pos rfl],
    fun a ha => by rw [Memory.get?_set, if_neg ha]⟩

/-- Settles O28: written bytes below `txlen` are a staged message, and `TXBUILD` sends its packet. -/
theorem txbuildSendsStagedPacket : Obligations.TxbuildSendsStagedPacket := by
  intro q s msg h1 h255 hlen hbuf
  have hstaged : Staged s.tx msg := ⟨by omega, fun _ => hbuf⟩
  exact ⟨packetBits s.cfg msg q, execTxbuild_of_staged hstaged q (by omega) (by omega), length_packetBits s.cfg msg q, rfl⟩

/-- Settles O29, along the cases of a `TXBUILD` that goes on. -/
theorem txbuildLeavesStagingEmpty : Obligations.TxbuildLeavesStagingEmpty := by
  intro q s t h
  obtain ⟨-, rfl⟩ | ⟨-, _, -, ⟨_, -, rfl⟩ | ⟨_, -, rfl⟩⟩ := (execTxbuild_next q s t).mp h <;> exact ⟨rfl, rfl⟩

/-- Settles O31: the `TXPUT`s stage the message, by induction on its bytes, and its length decides what `TXBUILD` answers. -/
theorem stagedMessageIsBuilt : Obligations.StagedMessageIsBuilt := by
  intro s msg q
  have hclr : execAll [.txclr] s = .next { clearStaging s with resp := some .ok } := rfl
  obtain ⟨x, v, hputs, hx⟩ :=
    execAll_txputs_staged (s := { clearStaging s with resp := some .ok }) (staged_nil s.tx.txbuf) msg
  have hrun : ∀ t, exec (.txbuild q) { s with tx := x, resp := v } = .next t →
      execAll ([.txclr] ++ msg.map .txput ++ [.txbuild q]) s = .next t := fun t ht =>
    (execAll_append _ _ _ _).mpr ⟨_, (execAll_append _ _ _ _).mpr ⟨_, hclr, hputs⟩,
      (execAll_cons_next _ _ _ _).mpr ⟨_, ht, rfl⟩⟩
  by_cases hlen : msg.length = 0 ∨ 255 < msg.length
  · exact ⟨_, hrun _ (execTxbuild_of_refused hx q hlen), rfl, rfl, rfl, rfl, rfl, fun _ => rfl, by omega⟩
  · refine ⟨_, hrun _ (execTxbuild_of_staged hx q ?_ ?_), rfl, rfl, rfl, rfl, rfl, fun hbad => absurd hbad hlen,
      fun h1 h255 => ⟨_, build_of_length q h1 h255, rfl⟩⟩ <;> omega

/-- Settles O53: no command of one side reads or writes a register of the other. -/
theorem transmitAndReceiveIndependent : Obligations.TransmitAndReceiveIndependent := fun _ _ _ h =>
  ⟨fun hi => exec_transmit_independent hi h, fun hi => exec_receive_independent hi h⟩

end Sys2Proof.Proofs
end

section
/-! PROOFS. The receive framer, one bit at a time (spec/42_rx_sync_framer.md R141 to R160): the equation of `RXBIT` in each of the
four states, what it leaves unchanged, and the steps that have an event (R162). -/

namespace Sys2Proof.Machine

/-! ### `RXBIT` from the step of the receive framer (R147) -/

/-- R147: a bit without an event writes `RXF` alone and answers `Ok`. -/
theorem execRxbit_of_quiet {s : State} {b : Bool} {r : Rxf} (h : rxStep s.cfg s.rx b = .ok (r, none)) :
    exec (.rxbit b) s = .next { s with rx := r, resp := some .ok } :=
  (execRxbit_next b s _).mpr (.inl ⟨r, h, rfl⟩)

/-- R147, R182: a bit with an event records it and answers it. -/
theorem execRxbit_of_event {s : State} {b : Bool} {r : Rxf} {ev : Event} {u : Stat}
    (h : rxStep s.cfg s.rx b = .ok (r, some ev)) (hu : record ev s.stat = .ok u) :
    exec (.rxbit b) s = .next { s with rx := r, stat := u, resp := some (eventResponse ev) } :=
  (execRxbit_next b s _).mpr (.inr ⟨r, ev, u, h, hu, rfl⟩)

/-- R181: an emission whose count has its bin is recorded. -/
theorem record_packetEmitted {pkt : DecodedPacket} (t : Stat) (h : pkt.correctedBitCount < histBins) :
    record (.packetEmitted pkt) t = .ok { t with
      nEmitted := t.nEmitted + 1
      totalCorrected := t.totalCorrected + pkt.correctedBitCount
      hist := Cells.set t.hist pkt.correctedBitCount (t.hist.count pkt.correctedBitCount + 1) } := by
  simp only [record, Hist.bump_of_lt _ h]

/-! ### `SEARCHING` (R148 to R150) -/

theorem syncMatch_iff (c : Cfg) (w : BitVec 24) (f : Nat) :
    syncMatch c w f = true ↔ f = 24 ∧ hd w (sync24 c) ≤ c.syncTol := by
  simp [syncMatch, windowBits]

/-- R149: the sync point. -/
theorem searchBit_of_match {c : Cfg} {r : Rxf} {b : Bool} (h : syncMatch c (shiftIn r.win b) (fillNext r) = true) :
    searchBit c r b = { rxClear r with st := .header } := if_pos h

/-- R150: the window slides. -/
theorem searchBit_of_mismatch {c : Cfg} {r : Rxf} {b : Bool} (h : ¬ syncMatch c (shiftIn r.win b) (fillNext r) = true) :
    searchBit c r b = { r with win := shiftIn r.win b, wfill := BitVec.ofNat 5 (fillNext r) } := if_neg h

/-! ### `HEADER` and `PAYLOAD` (R151 to R156) -/

/-- The test at the end of `HEADER` (R154) or of `PAYLOAD` (R156). -/
def groupEnd : RxState → Rxf → Nat → Rxf × Option Event
  | .header => headerEnd
  | _ => payloadEnd

@[simp] theorem groupEnd_header : groupEnd .header = headerEnd := rfl
@[simp] theorem groupEnd_payload : groupEnd .payload = payloadEnd := rfl

/-- R147: one bit in `HEADER` or `PAYLOAD` whose group goes on. -/
theorem rxStep_of_completeGroup {c : Cfg} {r q : Rxf} {b : Bool} (hst : r.st = .header ∨ r.st = .payload)
    (hq : completeGroup c (shiftGroup r b) (r.bitcnt.toNat + 1) = .ok q) :
    rxStep c r b = .ok (groupEnd r.st q (r.bitcnt.toNat + 1)) := by
  obtain hst | hst := hst
  · rw [rxStep_header hst, groupBit_of_completeGroup hq, hst, groupEnd_header]
  · rw [rxStep_payload hst, groupBit_of_completeGroup hq, hst, groupEnd_payload]

/-- R154, R156: 56 and `14 * hdr[0]` are multiples of 14, so no state ends before the second group of a byte. -/
theorem groupEnd_of_mod_ne (st : RxState) (r : Rxf) {n : Nat} (h : n % 14 ≠ 0) : groupEnd st r n = (r, none) := by
  have hheader : headerEnd r n = (r, none) := if_neg (by omega)
  have hpayload : payloadEnd r n = (r, none) := if_neg (by omega)
  cases st <;> assumption

/-- R151, R152: a bit that completes no group only shifts. -/
theorem rxStep_inside {c : Cfg} {r : Rxf} {b : Bool} (hst : r.st = .header ∨ r.st = .payload)
    (h : (r.bitcnt.toNat + 1) % 7 ≠ 0) : rxStep c r b = .ok (shiftGroup r b, none) := by
  rw [rxStep_of_completeGroup hst (completeGroup_inside c _ h), groupEnd_of_mod_ne _ _ (by omega)]

/-- R152, R153, R155: the first group of a byte gives its high nibble. -/
theorem completeGroup_even {c : Cfg} {r : Rxf} {n : Nat} {d : DecResult} (hd : dec c (groupOf r.sh) = some d)
    (hn : n % 14 = 7) : completeGroup c r n = .ok { r with corr := addCorrected r.corr d, hi := d.nibble } := by
  have h7 : n % 7 = 0 := by omega
  have hk : (n / 7 - 1) % 2 = 0 := by omega
  simp only [completeGroup, h7, if_true, takeGroup_of_dec hd, storeNibble, hk]

/-- R152, R153, R155: the second group of byte `i` gives its low nibble, and the byte is stored. -/
theorem completeGroup_odd {c : Cfg} {r : Rxf} {n i : Nat} {d : DecResult} (hd : dec c (groupOf r.sh) = some d)
    (hn : n = 14 * (i + 1)) :
    completeGroup c r n = storeByte { r with corr := addCorrected r.corr d } i (joinNibbles r.hi d.nibble) := by
  have h7 : n % 7 = 0 := by omega
  have hk : (n / 7 - 1) % 2 ≠ 0 := by omega
  have hi : (n / 7 - 1) / 2 = i := by omega
  simp only [completeGroup, h7, if_true, takeGroup_of_dec hd, storeNibble, hk, if_false, hi]

theorem storeByte_of_header {r : Rxf} {i : Nat} {v : Byte} {h : Header} (hst : r.st = .header) (hs : r.hdr.set? i v = some h) :
    storeByte r i v = .ok { r with hdr := h } := by
  simp only [storeByte, hst, if_true, storeHeaderByte, hs]

theorem storeByte_of_payload {r : Rxf} {i : Nat} (v : Byte) (hst : r.st = .payload) (hi : i < bufBytes) :
    storeByte r i v = .ok { r with rxbuf := Cells.set r.rxbuf i v } := by
  simp only [storeByte, hst, reduceCtorEq, if_false, storePayloadByte, Memory.store_of_lt _ v hi]

/-- R28, R153: a header byte below 4 can be written. -/
theorem Header.exists_set? (h : Header) {i : Nat} (v : Byte) (hi : i < 4) : ∃ h', h.set? i v = some h' :=
  Option.isSome_iff_exists.mp ((h.set?_isSome_iff i v).mpr hi)

/-! ### `END_CHECK` (R157, R158) -/

theorem endMatch_iff (c : Cfg) (e : Byte) : endMatch c e = true ↔ hd e c.endMarker ≤ c.endTol := decide_eq_true_iff

theorem endBit_collect {c : Cfg} {r : Rxf} {b : Bool} (h : r.bitcnt.toNat + 1 ≠ 8) :
    endBit c r b = .ok ({ r with sh := shiftIn r.sh b, bitcnt := r.bitcnt + 1 }, none) := if_neg h

theorem endBit_emit {c : Cfg} {r : Rxf} {b : Bool} {payload : List Byte} (h : r.bitcnt.toNat + 1 = 8)
    (hm : hd (shiftIn r.sh b) c.endMarker ≤ c.endTol) (hl : r.rxbuf.load r.hdr.plen.toNat = .ok payload) :
    endBit c r b = .ok (rxClear r, some (.packetEmitted (packetOf r payload))) := by
  simp only [endBit, h, if_true, (endMatch_iff c _).mpr hm, hl]

theorem endBit_discard {c : Cfg} {r : Rxf} {b : Bool} (h : r.bitcnt.toNat + 1 = 8)
    (hm : c.endTol < hd (shiftIn r.sh b) c.endMarker) : endBit c r b = .ok (rxClear r, some .endMarkerMismatch) := by
  have hm' : endMatch c (shiftIn r.sh b) = false := decide_eq_false (Nat.not_le.mpr hm)
  simp only [endBit, h, if_true, hm', Bool.false_eq_true, if_false]

/-- R157: as many bytes lie within a distance of a marker as values have a weight within it: exclusive or with the marker takes
the ones to the others. -/
theorem countP_hd_le (m : Byte) (n : Nat) :
    (List.range 256).countP (fun e => hd (BitVec.ofNat 8 e) m ≤ n) = (allValues 8).countP (fun e => popcount e ≤ n) := by
  have hvalues : (List.range 256).map (BitVec.ofNat 8) = allValues 8 := by
    rw [show (256 : Nat) = 2 ^ 8 from rfl, ← List.map_coe_finRange_eq_range, List.map_map]
    exact List.map_congr_left fun i _ => by simp
  have hperm : ((allValues 8).map (· ^^^ m)).Perm (allValues 8) := by
    refine (List.perm_ext_iff_of_nodup ((nodup_allValues 8).map fun a b h => ?_) (nodup_allValues 8)).mpr fun e => ?_
    · exact (BitVec.xor_left_inj m).mp h
    · exact iff_of_true (List.mem_map.mpr ⟨e ^^^ m, mem_allValues _, by simp⟩) (mem_allValues e)
  calc (List.range 256).countP (fun e => hd (BitVec.ofNat 8 e) m ≤ n)
      = (allValues 8).countP (fun e => hd e m ≤ n) := by rw [← hvalues, List.countP_map]; rfl
    _ = ((allValues 8).map (· ^^^ m)).countP (fun e => popcount e ≤ n) := by rw [List.countP_map]; rfl
    _ = (allValues 8).countP (fun e => popcount e ≤ n) := hperm.countP_eq _

/-- R157: nine bytes have at most one bit set. -/
theorem countP_popcount_le_one : (allValues 8).countP (fun e => popcount e ≤ 1) = 9 := by
  have hmem : ∀ e : Byte, popcount e ≤ 1 ↔ e ∈ ([0, 1, 2, 4, 8, 16, 32, 64, 128] : List Byte) := by decide
  rw [List.countP_eq_length_filter]
  refine List.Perm.length_eq (l₂ := [0, 1, 2, 4, 8, 16, 32, 64, 128])
    ((List.perm_ext_iff_of_nodup ((nodup_allValues 8).filter _) (by decide)).mpr fun e => ?_)
  rw [List.mem_filter, decide_eq_true_iff, hmem]
  exact and_iff_right (mem_allValues e)

/-! ### Totality (R147, R202) -/

theorem execRxbit_ne_refused (b : Bool) (s : State) (f : Refusal) : exec (.rxbit b) s ≠ .refused f := by
  simp only [exec, execRxbit]
  cases rxStep s.cfg s.rx b with
  | error g => exact nofun
  | ok p =>
    obtain ⟨r, _ | ev⟩ := p
    · exact nofun
    · cases hr : record ev s.stat <;> simp [hr, respond]

/-- R147: where the invariant holds every bit has its next state. -/
theorem execRxbit_total {s : State} (h : Inv s) (b : Bool) : ∃ t, exec (.rxbit b) s = .next t := by
  cases hx : exec (.rxbit b) s with
  | next t => exact ⟨t, rfl⟩
  | fault f => exact absurd hx (execRxbit_ne_fault h b f)
  | refused f => exact absurd hx (execRxbit_ne_refused b s f)

/-! ### What one bit leaves unchanged (R147, R153, R155) -/

/-- R148 to R150: a bit in `SEARCHING` writes the window, or `HEADER` and zeroes. -/
theorem searchBit_frame (c : Cfg) (r : Rxf) (b : Bool) :
    (∃ w f, searchBit c r b = { r with win := w, wfill := f }) ∨ searchBit c r b = { rxClear r with st := .header } := by
  by_cases h : syncMatch c (shiftIn r.win b) (fillNext r) = true
  · exact .inr (searchBit_of_match h)
  · exact .inl ⟨_, _, searchBit_of_mismatch h⟩

/-- R155: a group changes `RXBUF` only in `PAYLOAD`, at its end when it is the second of a byte, at that byte. -/
theorem completeGroup_rxbuf {c : Cfg} {r r' : Rxf} {k : Nat} (hst : r.st = .header ∨ r.st = .payload)
    (h : completeGroup c r (k + 1) = .ok r') {a : Nat}
    (ha : ¬ (r.st = .payload ∧ (k + 1) % 14 = 0 ∧ a = ((k + 1) / 7 - 1) / 2)) : r'.rxbuf.get? a = r.rxbuf.get? a := by
  obtain ⟨-, rfl⟩ | ⟨h7, d, -, ⟨-, rfl⟩ | ⟨-, -, hdr, -, rfl⟩ | ⟨h2, hne, -, rfl⟩⟩ := completeGroup_ok h
  · rfl
  · rfl
  · rfl
  · exact (Memory.get?_set _ _ _ _).trans (if_neg fun he => ha ⟨hst.resolve_left hne, by omega, he⟩)

/-- R154, R156: the end of a state clears the receiver, or keeps every register but the tag, `sh` and `bitcnt`. -/
theorem groupEnd_frame (st : RxState) (r : Rxf) (n : Nat) :
    (groupEnd st r n).1 = rxClear r ∨
      ∃ st' sh' n', (groupEnd st r n).1 = { r with st := st', sh := sh', bitcnt := n' } := by
  have hheader : (headerEnd r n).1 = rxClear r ∨
      ∃ st' sh' n', (headerEnd r n).1 = { r with st := st', sh := sh', bitcnt := n' } := by
    obtain ⟨-, he⟩ | ⟨-, -, he⟩ | ⟨-, -, he⟩ := headerEnd_cases r n <;> rw [he]
    · exact .inr ⟨r.st, r.sh, r.bitcnt, rfl⟩
    · exact .inl rfl
    · exact .inr ⟨_, _, _, rfl⟩
  have hpayload : ∃ st' sh' n', (payloadEnd r n).1 = { r with st := st', sh := sh', bitcnt := n' } := by
    obtain ⟨-, he⟩ | ⟨-, he⟩ := payloadEnd_cases r n <;> rw [he]
    · exact ⟨r.st, r.sh, r.bitcnt, rfl⟩
    · exact ⟨_, _, _, rfl⟩
  cases st
  case header => exact hheader
  all_goals exact .inr hpayload

/-- R157, R158: a bit in `END_CHECK` is collected, or clears the receiver. -/
theorem endBit_frame {c : Cfg} {r r' : Rxf} {b : Bool} {ev : Option Event} (h : endBit c r b = .ok (r', ev)) :
    (∃ sh' n', r' = { r with sh := sh', bitcnt := n' }) ∨ r' = rxClear r := by
  obtain ⟨-, he⟩ | ⟨-, -, payload, -, he⟩ | ⟨-, -, he⟩ := endBit_ok h <;> obtain ⟨rfl, -⟩ := Prod.mk.inj he
  · exact .inl ⟨_, _, rfl⟩
  · exact .inr rfl
  · exact .inr rfl

/-- R155: the bit about to be received completes byte `a` of the payload. -/
def CompletesByte (r : Rxf) (a : Nat) : Prop :=
  r.st = .payload ∧ (r.bitcnt.toNat + 1) % 14 = 0 ∧ a = ((r.bitcnt.toNat + 1) / 7 - 1) / 2

/-- The frame of one bit in the registers of the receiver: `RXBUF`, the header bytes, the window, and what a packet has
collected. -/
structure RxFrame (r r' : Rxf) : Prop where
  rxbuf : ∀ a, ¬ CompletesByte r a → r'.rxbuf.get? a = r.rxbuf.get? a
  hdr : r.st ≠ .header → r'.hdr = r.hdr ∨ r' = { Rxf.reset with st := r'.st, rxbuf := r'.rxbuf }
  window : r.st ≠ .searching → (r'.win = r.win ∧ r'.wfill = r.wfill) ∨ r' = { Rxf.reset with rxbuf := r'.rxbuf }
  packet : r.st = .searching ∨ r.st = .endCheck →
    r'.corr = r.corr ∧ r'.hi = r.hi ∧ r'.unc = r.unc ∨ r' = { Rxf.reset with st := r'.st, rxbuf := r'.rxbuf }

/-- A cleared receiver is within the frame of every step, its `RXBUF` within that of the step. -/
theorem RxFrame.of_rxClear {r q : Rxf} (h : ∀ a, ¬ CompletesByte r a → q.rxbuf.get? a = r.rxbuf.get? a) :
    RxFrame r (rxClear q) :=
  ⟨h, fun _ => .inr rfl, fun _ => .inr rfl, fun _ => .inr rfl⟩

/-- The end of a state keeps what the group before it kept. -/
theorem RxFrame.of_groupEnd {r q : Rxf} (n : Nat) (hst : r.st = .header ∨ r.st = .payload)
    (hbuf : ∀ a, ¬ CompletesByte r a → q.rxbuf.get? a = r.rxbuf.get? a)
    (hhdr : r.st ≠ .header → q.hdr = r.hdr) (hwin : q.win = r.win ∧ q.wfill = r.wfill) :
    RxFrame r (groupEnd r.st q n).1 := by
  have hgroup : ¬ (r.st = .searching ∨ r.st = .endCheck) := by obtain hst | hst := hst <;> simp [hst]
  obtain he | ⟨st', sh', n', he⟩ := groupEnd_frame r.st q n <;> rw [he]
  · exact .of_rxClear hbuf
  · exact ⟨hbuf, fun hne => .inl (hhdr hne), fun _ => .inl hwin, fun hs => absurd hs hgroup⟩

/-- R151 to R156: the frame of a bit in `HEADER` or `PAYLOAD`. -/
theorem groupBit_frame {c : Cfg} {r q : Rxf} {b : Bool} (hst : r.st = .header ∨ r.st = .payload)
    (hq : completeGroup c (shiftGroup r b) (r.bitcnt.toNat + 1) = .ok q) :
    RxFrame r (groupEnd r.st q (r.bitcnt.toNat + 1)).1 := by
  obtain ⟨-, hwin, hwfill, -⟩ := completeGroup_keeps hq
  refine .of_groupEnd _ hst (fun a ha => ?_) (fun hne => ?_) ⟨?_, ?_⟩
  · rw [completeGroup_rxbuf (r := shiftGroup r b) hst hq ha, shiftGroup_rxbuf]
  · rw [completeGroup_payload_hdr hq (hst.resolve_left hne), shiftGroup_hdr]
  · rw [hwin, shiftGroup_win]
  · rw [hwfill, shiftGroup_wfill]

/-- R147: the frame of one bit. -/
theorem rxStep_frame {c : Cfg} {r r' : Rxf} {b : Bool} {ev : Option Event} (h : rxStep c r b = .ok (r', ev)) :
    RxFrame r r' := by
  have hgroup : r.st = .header ∨ r.st = .payload → RxFrame r r' := fun hst => by
    have hq : ∃ q, completeGroup c (shiftGroup r b) (r.bitcnt.toNat + 1) = .ok q := by
      obtain hst | hst := hst
      · exact (groupBit_ok (rxStep_header hst b ▸ h)).imp fun _ hq => hq.1
      · exact (groupBit_ok (rxStep_payload hst b ▸ h)).imp fun _ hq => hq.1
    obtain ⟨q, hq⟩ := hq
    have hfin := Except.ok.inj ((rxStep_of_completeGroup hst hq).symm.trans h)
    exact (show (groupEnd r.st q (r.bitcnt.toNat + 1)).1 = r' by rw [hfin]) ▸ groupBit_frame hst hq
  cases hst : r.st with
  | searching =>
    rw [rxStep_searching hst] at h
    obtain ⟨rfl, -⟩ := Prod.mk.inj (Except.ok.inj h)
    obtain ⟨w, f, he⟩ | he := searchBit_frame c r b <;> rw [he]
    · exact ⟨fun _ _ => rfl, fun _ => .inl rfl, fun hne => absurd hst hne, fun _ => .inl ⟨rfl, rfl, rfl⟩⟩
    · exact ⟨fun _ _ => rfl, fun _ => .inr rfl, fun hne => absurd hst hne, fun _ => .inr rfl⟩
  | header => exact hgroup (.inl hst)
  | payload => exact hgroup (.inr hst)
  | endCheck =>
    obtain ⟨sh', n', rfl⟩ | rfl := endBit_frame (rxStep_endCheck hst b ▸ h)
    · exact ⟨fun _ _ => rfl, fun _ => .inl rfl, fun _ => .inl ⟨rfl, rfl⟩, fun _ => .inl ⟨rfl, rfl, rfl⟩⟩
    · exact .of_rxClear fun _ _ => rfl

/-! ### Where an event occurs (R162) -/

/-- R154, R157, R158: the bit of each event. -/
theorem rxStep_event {c : Cfg} {r r' : Rxf} {b : Bool} {ev : Event} (h : rxStep c r b = .ok (r', some ev)) :
    (ev = .headerCorrupt ∧ r.st = .header ∧ r.bitcnt.toNat = 55) ∨
    (ev ≠ .headerCorrupt ∧ r.st = .endCheck ∧ r.bitcnt.toNat = 7) := by
  cases hst : r.st with
  | searching =>
    rw [rxStep_searching hst] at h
    exact absurd (Prod.mk.inj (Except.ok.inj h)).2 nofun
  | header =>
    obtain ⟨q, -, hfin⟩ := groupBit_ok (rxStep_header hst b ▸ h)
    obtain ⟨-, he⟩ | ⟨h56, -, he⟩ | ⟨-, -, he⟩ := headerEnd_cases q (r.bitcnt.toNat + 1) <;>
      obtain ⟨-, hev⟩ := Prod.mk.inj (hfin.trans he)
    · exact absurd hev nofun
    · exact .inl ⟨Option.some.inj hev, rfl, by omega⟩
    · exact absurd hev nofun
  | payload =>
    obtain ⟨q, -, hfin⟩ := groupBit_ok (rxStep_payload hst b ▸ h)
    obtain ⟨-, he⟩ | ⟨-, he⟩ := payloadEnd_cases q (r.bitcnt.toNat + 1) <;>
      exact absurd (Prod.mk.inj (hfin.trans he)).2 nofun
  | endCheck =>
    obtain ⟨-, he⟩ | ⟨h8, -, payload, -, he⟩ | ⟨h8, -, he⟩ := endBit_ok (rxStep_endCheck hst b ▸ h) <;>
      obtain ⟨-, hev⟩ := Prod.mk.inj he
    · exact absurd hev nofun
    · exact .inr ⟨by rw [Option.some.inj hev]; exact nofun, rfl, by omega⟩
    · exact .inr ⟨by rw [Option.some.inj hev]; exact nofun, rfl, by omega⟩

/-- R181: which event counters `record` moves, and that it moves one by 1. -/
theorem record_counters {ev : Event} {t u : Stat} (h : record ev t = .ok u) :
    (ev ≠ .headerCorrupt → u.nHeaderCorrupt = t.nHeaderCorrupt) ∧
    (ev = .headerCorrupt → u.nEmitted = t.nEmitted ∧ u.nEndMismatch = t.nEndMismatch) ∧
    eventTotal u = eventTotal t + 1 := by
  cases ev with
  | packetEmitted pkt =>
    simp only [record] at h
    cases hb : t.hist.bump pkt.correctedBitCount with
    | error f => simp [hb] at h
    | ok h' =>
      rw [hb] at h
      obtain rfl := Except.ok.inj h
      exact ⟨fun _ => rfl, nofun, by simp only [eventTotal]; omega⟩
  | headerCorrupt =>
    obtain rfl := Except.ok.inj h
    exact ⟨fun hne => absurd rfl hne, fun _ => ⟨rfl, rfl⟩, by simp only [eventTotal]; omega⟩
  | endMarkerMismatch =>
    obtain rfl := Except.ok.inj h
    exact ⟨fun _ => rfl, nofun, by simp only [eventTotal]; omega⟩

/-- R182: no command but `RXBIT` writes a counter. -/
theorem exec_keeps_stat {i : Instr} {s t : State} (hi : ∀ b, i ≠ .rxbit b) (h : exec i s = .next t) : t.stat = s.stat := by
  cases i with
  | nop => exact ((execNop_next s t).mp h) ▸ rfl
  | enc n => exact ((execEnc_next n s t).mp h) ▸ rfl
  | dec c =>
    obtain ⟨d, -, rfl⟩ := (execDec_next c s t).mp h
    rfl
  | rxbit b => exact absurd rfl (hi b)
  | rxrst => exact ((execRxrst_next s t).mp h) ▸ rfl
  | txput v => exact (exec_transmit_independent (.inr (.inl ⟨v, rfl⟩)) h).2.1
  | txbuild q => exact (exec_transmit_independent (.inr (.inr ⟨q, rfl⟩)) h).2.1
  | txclr => exact (exec_transmit_independent (.inl rfl) h).2.1
  | snap => exact ((execSnap_next s t).mp h) ▸ rfl

end Sys2Proof.Machine

namespace Sys2Proof.Proofs

open Sys2Proof.Machine

/-- Settles O33. -/
theorem nopHoldsAllState : Obligations.NopHoldsAllState := fun s => (execNop_next s _).mpr rfl

/-- Settles O34. -/
theorem rxrstClearsReceiver : Obligations.RxrstClearsReceiver := fun s => (execRxrst_next s _).mpr rfl

/-- Settles O35, by the two cases of the match test. -/
theorem searchingSlidesTheWindow : Obligations.SearchingSlidesTheWindow := by
  intro b s hst w f
  have hmatch : syncMatch s.cfg (shiftIn s.rx.win b) (fillNext s.rx) = true ↔
      f = 24 ∧ hd w (s.cfg.preamble ++ s.cfg.startMarker) ≤ s.cfg.syncTol := syncMatch_iff _ _ _
  refine ⟨fun h => ?_, fun h => ?_⟩ <;> refine execRxbit_of_quiet ((rxStep_searching hst b).trans ?_)
  · rw [searchBit_of_match (hmatch.mpr h)]
    rfl
  · rw [searchBit_of_mismatch (mt hmatch.mp h)]
    rfl

/-- Settles O36. -/
theorem bitInsideGroupOnlyShifts : Obligations.BitInsideGroupOnlyShifts :=
  fun _ _ hst h => execRxbit_of_quiet (rxStep_inside hst h)

/-- Settles O37: the group decodes, its nibble goes where `storeNibble` puts it, and bit 56 validates the header. -/
theorem headerGroupCompletes : Obligations.HeaderGroupCompletes := by
  intro b s hc hst hlt h7 n k sh'
  obtain ⟨d, hd⟩ := dec_total hc (groupOf sh')
  have hunc : (s.rx.unc || d.errorCount == .uncertain) = s.rx.unc := mergeUnc_of_dec hd _
  have hdr : ∃ hdr' : Header, (k % 2 = 0 → hdr' = s.rx.hdr) ∧
      (k % 2 = 1 → hdr'.get? (k / 2) = some (s.rx.hi ++ d.nibble) ∧ ∀ j, j ≠ k / 2 → hdr'.get? j = s.rx.hdr.get? j) ∧
      completeGroup s.cfg (shiftGroup s.rx b) n = .ok { shiftGroup s.rx b with
        corr := addCorrected s.rx.corr d, hi := if k % 2 = 0 then d.nibble else s.rx.hi, hdr := hdr' } := by
    obtain hk | hk := Nat.mod_two_eq_zero_or_one k
    · exact ⟨s.rx.hdr, fun _ => rfl, by omega, by rw [if_pos hk]; exact completeGroup_even hd (by omega)⟩
    · obtain ⟨h', hs⟩ := s.rx.hdr.exists_set? (i := k / 2) (joinNibbles s.rx.hi d.nibble) (by omega)
      refine ⟨h', by omega, fun _ => ⟨?_, fun j hj => ?_⟩, ?_⟩
      · exact (Header.get?_set? hs _).trans (if_pos rfl)
      · exact (Header.get?_set? hs _).trans (if_neg hj)
      · rw [if_neg (by omega)]
        exact (completeGroup_odd (r := shiftGroup s.rx b) hd (by omega)).trans (storeByte_of_header hst hs)
  obtain ⟨hdr', heven, hodd, hq⟩ := hdr
  have hstep := rxStep_of_completeGroup (.inl hst) hq
  rw [hst, groupEnd_header] at hstep
  refine ⟨d, hdr', hd, heven, hodd, fun h56 => ?_, fun h56 h0 => ?_, fun h56 h0 => ?_⟩
  · rw [hunc]
    exact execRxbit_of_quiet (hstep.trans (congrArg Except.ok (if_neg h56.ne)))
  · exact execRxbit_of_event (hstep.trans (congrArg Except.ok ((if_pos h56).trans (if_pos h0)))) rfl
  · rw [hunc]
    exact execRxbit_of_quiet (hstep.trans (congrArg Except.ok ((if_pos h56).trans (if_neg h0))))

/-- Settles O38: as in the header, with the byte in `RXBUF`, and the last bit of the payload entering `END_CHECK`. -/
theorem payloadGroupCompletes : Obligations.PayloadGroupCompletes := by
  intro b s hc hst hlt h7 n k sh'
  obtain ⟨d, hd⟩ := dec_total hc (groupOf sh')
  have hunc : (s.rx.unc || d.errorCount == .uncertain) = s.rx.unc := mergeUnc_of_dec hd _
  have hroom : k / 2 < bufBytes := by
    have := s.rx.hdr.plen.isLt
    simp only [bufBytes]
    omega
  have hbuf : ∃ m : Memory, (k % 2 = 0 → m = s.rx.rxbuf) ∧
      (k % 2 = 1 → m.get? (k / 2) = some (s.rx.hi ++ d.nibble) ∧ ∀ a, a ≠ k / 2 → m.get? a = s.rx.rxbuf.get? a) ∧
      completeGroup s.cfg (shiftGroup s.rx b) n = .ok { shiftGroup s.rx b with
        corr := addCorrected s.rx.corr d, hi := if k % 2 = 0 then d.nibble else s.rx.hi, rxbuf := m } := by
    obtain hk | hk := Nat.mod_two_eq_zero_or_one k
    · exact ⟨s.rx.rxbuf, fun _ => rfl, by omega, by rw [if_pos hk]; exact completeGroup_even hd (by omega)⟩
    · refine ⟨Cells.set s.rx.rxbuf (k / 2) (joinNibbles s.rx.hi d.nibble), by omega, fun _ => ⟨?_, fun a ha => ?_⟩, ?_⟩
      · exact (Memory.get?_set _ _ _ _).trans (if_pos rfl)
      · exact (Memory.get?_set _ _ _ _).trans (if_neg ha)
      · rw [if_neg (by omega)]
        exact (completeGroup_odd (r := shiftGroup s.rx b) hd (by omega)).trans (storeByte_of_payload _ hst hroom)
  obtain ⟨m, heven, hodd, hq⟩ := hbuf
  have hstep := rxStep_of_completeGroup (.inr hst) hq
  rw [hst, groupEnd_payload] at hstep
  refine ⟨d, m, hd, heven, hodd, fun hne => ?_, fun hend => ?_⟩ <;> rw [hunc] <;>
    refine execRxbit_of_quiet (hstep.trans (congrArg Except.ok ?_))
  · exact if_neg hne
  · exact if_pos hend

/-- Settles O39, by the three cases of a bit in `END_CHECK`; the nine end bytes are the marker and its neighbours. -/
theorem endCheckEmitsOrDiscards : Obligations.EndCheckEmitsOrDiscards := by
  refine ⟨?_, fun c hc => ?_, by decide⟩
  · intro b s payload hst hlt hlen hbuf hcorr e
    refine ⟨fun h8 => ?_, fun h8 hm => ?_, fun h8 hm => ?_⟩
    · exact execRxbit_of_quiet ((rxStep_endCheck hst b).trans (endBit_collect h8.ne))
    · have hload : s.rx.rxbuf.load s.rx.hdr.plen.toNat = .ok payload :=
        (Memory.load_ok_iff _ _ _).mpr ⟨Nat.le_of_lt_succ s.rx.hdr.plen.isLt, hlen, hlen ▸ hbuf⟩
      have hbin : s.rx.corr.toNat < histBins := Nat.lt_succ_of_le hcorr
      have hbump := Hist.count_bump (Hist.bump_of_lt s.stat.hist hbin)
      refine ⟨_, (hbump _).trans (if_pos rfl), fun c hc => (hbump c).trans (if_neg hc), ?_⟩
      exact execRxbit_of_event ((rxStep_endCheck hst b).trans (endBit_emit h8 hm hload))
        (record_packetEmitted (pkt := packetOf s.rx payload) s.stat hbin)
    · exact execRxbit_of_event ((rxStep_endCheck hst b).trans (endBit_discard h8 hm)) rfl
  · have htol := (tolerances_of_wf hc).2
    refine ⟨htol, ?_⟩
    rw [countP_hd_le, htol, countP_popcount_le_one]

/-- Settles O40: the bit has its step, and the event of the step is the one the response shows. -/
theorem rxbitTakesEveryBit : Obligations.RxbitTakesEveryBit := by
  intro b s h
  obtain ⟨t, hx⟩ := execRxbit_total h b
  refine ⟨t, hx, ?_⟩
  obtain ⟨r, hr, rfl⟩ | ⟨r, ev, u, hr, -, rfl⟩ := (execRxbit_next b s t).mp hx
  · refine .inr ⟨fun pkt he => ?_, rfl⟩
    obtain ⟨q, hq⟩ := eventOf_rxbit_eq_some.mp he
    exact absurd (Prod.mk.inj (Except.ok.inj (hr.symm.trans hq))).2 nofun
  · have he : eventOf (.rxbit b) s = some ev := eventOf_rxbit_eq_some.mpr ⟨r, hr⟩
    rw [he]
    cases ev with
    | packetEmitted pkt => exact .inl ⟨pkt, rfl, rfl⟩
    | headerCorrupt => exact .inr ⟨fun _ => by simp, rfl⟩
    | endMarkerMismatch => exact .inr ⟨fun _ => by simp, rfl⟩

/-- Settles O41, by the frame of the receive framer's step. -/
theorem rxbitFrame : Obligations.RxbitFrame := by
  intro b s t hx
  obtain ⟨r, hr, rfl⟩ | ⟨r, ev, u, hr, -, rfl⟩ := (execRxbit_next b s t).mp hx <;>
    exact ⟨rfl, rfl, rfl, (rxStep_frame hr).rxbuf, (rxStep_frame hr).hdr, (rxStep_frame hr).window, (rxStep_frame hr).packet⟩

/-- Settles O44: only an `RXBIT` with an event writes a counter, and `record` moves the counter of that event. -/
theorem eventsOnlyAtPacketEnds : Obligations.EventsOnlyAtPacketEnds := by
  intro i s t hx
  by_cases hbit : ∃ b, i = .rxbit b
  · obtain ⟨b, rfl⟩ := hbit
    obtain ⟨r, hr, rfl⟩ | ⟨r, ev, u, hr, hu, rfl⟩ := (execRxbit_next b s t).mp hx
    · exact ⟨fun hne => absurd rfl hne, fun hne => absurd ⟨rfl, rfl⟩ (not_and_or.mpr hne), .inl rfl⟩
    · obtain ⟨hother, hcorrupt, htotal⟩ := record_counters hu
      obtain ⟨hev, hst, hn⟩ | ⟨hev, hst, hn⟩ := rxStep_event hr
      · exact ⟨fun _ => ⟨⟨b, rfl⟩, hst, hn⟩, fun hne => absurd (hcorrupt hev) (not_and_or.mpr hne), .inr htotal⟩
      · exact ⟨fun hne => absurd (hother hev) hne, fun _ => ⟨⟨b, rfl⟩, hst, hn⟩, .inr htotal⟩
  · have hstat := exec_keeps_stat (fun b hb => hbit ⟨b, hb⟩) hx
    rw [hstat]
    exact ⟨fun hne => absurd rfl hne, fun hne => absurd ⟨rfl, rfl⟩ (not_and_or.mpr hne), .inl rfl⟩

end Sys2Proof.Proofs
end

section
/-! PROOFS. Bounded blindness (spec/42_rx_sync_framer.md R161, R163): every bit outside `SEARCHING` uses up one of the bits after
which the receiver is back there. -/

namespace Sys2Proof.Machine

/-- R161: how many bits at most keep the receiver outside `SEARCHING`: what is left of the state, and the longest the states after
it can be. -/
def blindLeft (r : Rxf) : Nat :=
  match r.st with
  | .searching => 0
  | .header => 56 - r.bitcnt.toNat + 14 * bufBytes + 8
  | .payload => 14 * r.hdr.plen.toNat - r.bitcnt.toNat + 8
  | .endCheck => 8 - r.bitcnt.toNat

theorem blindLeft_le (r : Rxf) : blindLeft r ≤ 3634 := by
  have hlen := r.hdr.plen.isLt
  cases hst : r.st <;> simp only [blindLeft, hst, bufBytes] <;> omega

/-- Only in `SEARCHING` is nothing left. -/
theorem blindLeft_pos {r : Rxf} (h : RxInv r) (hst : r.st ≠ .searching) : 0 < blindLeft r := by
  have hbit := h.bitcnt_lt
  unfold bitLimit at hbit
  unfold blindLeft
  cases hs : r.st with
  | searching => exact absurd hs hst
  | header => simp only [hs] at hbit ⊢; omega
  | payload => simp only [hs] at hbit ⊢; omega
  | endCheck => simp only [hs] at hbit ⊢; omega

/-- R151 to R158: a bit outside `SEARCHING` brings the receiver one bit closer to it, or all the way. -/
theorem rxStep_blindLeft {c : Cfg} {r r' : Rxf} {b : Bool} {ev : Option Event} (h : RxInv r) (hst : r.st ≠ .searching)
    (hs : rxStep c r b = .ok (r', ev)) : blindLeft r' < blindLeft r := by
  have hpos := blindLeft_pos h hst
  have hbit := h.bitcnt_lt
  cases hs' : r.st with
  | searching => exact absurd hs' hst
  | header =>
    obtain ⟨q, hq, hfin⟩ := groupBit_ok (rxStep_header hs' b ▸ hs)
    obtain ⟨qst, -, -, -, qbit, -⟩ := completeGroup_keeps hq
    simp only [bitLimit, hs'] at hbit
    have qbitNat : q.bitcnt.toNat = r.bitcnt.toNat + 1 := by rw [qbit, shiftGroup_bitcnt, bitcnt_succ (by omega)]
    obtain ⟨hne, he⟩ | ⟨-, -, he⟩ | ⟨-, -, he⟩ := headerEnd_cases q (r.bitcnt.toNat + 1) <;>
      obtain ⟨rfl, -⟩ := Prod.mk.inj (hfin.trans he)
    · simp only [blindLeft, qst, shiftGroup_st, hs', qbitNat]
      omega
    · exact hpos
    · have hlen := q.hdr.plen.isLt
      simp only [blindLeft, hs', bufBytes]
      omega
  | payload =>
    obtain ⟨q, hq, hfin⟩ := groupBit_ok (rxStep_payload hs' b ▸ hs)
    obtain ⟨qst, -, -, -, qbit, -⟩ := completeGroup_keeps hq
    have qhdr : q.hdr = r.hdr := (completeGroup_payload_hdr hq hs').trans (shiftGroup_hdr r b)
    have hlen := r.hdr.plen.isLt
    simp only [bitLimit, hs'] at hbit
    have qbitNat : q.bitcnt.toNat = r.bitcnt.toNat + 1 := by rw [qbit, shiftGroup_bitcnt, bitcnt_succ (by omega)]
    obtain ⟨hne, he⟩ | ⟨-, he⟩ := payloadEnd_cases q (r.bitcnt.toNat + 1) <;>
      obtain ⟨rfl, -⟩ := Prod.mk.inj (hfin.trans he)
    · simp only [blindLeft, qst, shiftGroup_st, hs', qbitNat, qhdr]
      omega
    · simp only [blindLeft, hs']
      omega
  | endCheck =>
    simp only [bitLimit, hs'] at hbit
    obtain ⟨-, he⟩ | ⟨-, -, payload, -, he⟩ | ⟨-, -, he⟩ := endBit_ok (rxStep_endCheck hs' b ▸ hs) <;>
      obtain ⟨rfl, -⟩ := Prod.mk.inj he
    · simp only [blindLeft, hs', bitcnt_succ (n := r.bitcnt) (by omega)]
      omega
    · exact hpos
    · exact hpos

/-- R161: as many bits as are left lead back to `SEARCHING`, some of them sooner. -/
theorem execAll_reaches_searching {s : State} {bs : Bits} (h : Inv s) (hlen : blindLeft s.rx ≤ bs.length) :
    ∃ k t, k ≤ bs.length ∧ execAll (rxBits (bs.take k)) s = .next t ∧ t.rx.st = .searching := by
  by_cases hst : s.rx.st = .searching
  · exact ⟨0, s, Nat.zero_le _, rfl, hst⟩
  · induction bs generalizing s with
    | nil => exact absurd (blindLeft_pos h.rx hst) (Nat.not_lt.mpr hlen)
    | cons b bs ih =>
      obtain ⟨u, hx⟩ := execRxbit_total h b
      have hdown : blindLeft u.rx < blindLeft s.rx := by
        obtain ⟨r, hr, rfl⟩ | ⟨r, ev, v, hr, -, rfl⟩ := (execRxbit_next b s u).mp hx <;> exact rxStep_blindLeft h.rx hst hr
      have hrun : ∀ k t, execAll (rxBits (bs.take k)) u = .next t → execAll (rxBits ((b :: bs).take (k + 1))) s = .next t :=
        fun k t ht => (execAll_cons_next _ _ _ _).mpr ⟨u, hx, ht⟩
      by_cases hu : u.rx.st = .searching
      · exact ⟨1, u, by simp, hrun 0 u rfl, hu⟩
      · obtain ⟨k, t, hk, ht, hsearch⟩ := ih (exec_keeps_inv h hx) (by simp only [List.length_cons] at hlen; omega) hu
        exact ⟨k + 1, t, Nat.succ_le_succ hk, hrun k t ht, hsearch⟩

end Sys2Proof.Machine

namespace Sys2Proof.Proofs

open Sys2Proof.Machine

/-- Settles O45: 56 header bits, 3570 payload bits and 8 end bits are the most a packet can take. -/
theorem blindSpanEnds : Obligations.BlindSpanEnds := by
  intro s bs h _ hlen
  obtain ⟨k, t, hk, ht, hsearch⟩ := execAll_reaches_searching h (hlen ▸ blindLeft_le s.rx)
  exact ⟨k, t, hlen ▸ hk, ht, hsearch⟩

end Sys2Proof.Proofs
end

section
/-! PROOFS. Bits in time order (spec/00_scope.md R15, spec/20_memory.md R53): a register that takes in a sequence holds its last
bits, and the distance of two values is the number of places their bits differ in. -/

namespace Sys2Proof.Machine

/-! ### Shift registers (R53) -/

theorem shiftIn_getLsbD {n : Nat} (v : BitVec n) (b : Bool) {j : Nat} (hj : j < n) :
    (shiftIn v b).getLsbD j = if j = 0 then b else v.getLsbD (j - 1) := by
  obtain _ | j := j
  · simp [shiftIn, hj]
  · simp [shiftIn, hj, BitVec.getLsbD_eq_getElem (show j < n by omega)]

/-- The bits of a register after one more bit: the oldest is gone, the new one is last. -/
theorem msbBits_shiftIn {n : Nat} (v : BitVec n) (b : Bool) : msbBits (shiftIn v b) = (msbBits v ++ [b]).drop 1 := by
  refine List.ext_getElem (by simp) fun i hi _ => ?_
  rw [length_msbBits] at hi
  simp only [msbBits, List.getElem_map, List.getElem_range, List.getElem_drop, List.getElem_append, List.length_map,
    List.length_range, BitVec.getMsbD_eq_getLsbD, hi, decide_true, Bool.true_and]
  rw [shiftIn_getLsbD v b (by omega)]
  by_cases hlast : 1 + i < n
  · rw [dif_pos hlast, if_neg (by omega)]
    simp [hlast, show n - 1 - i - 1 = n - 1 - (1 + i) by omega]
  · rw [dif_neg hlast, if_pos (by omega)]
    simp

theorem msbBits_foldl_shiftIn {n : Nat} (v : BitVec n) (bs : Bits) :
    msbBits (bs.foldl shiftIn v) = (msbBits v ++ bs).drop bs.length := by
  induction bs generalizing v with
  | nil => simp
  | cons b bs ih =>
    have hfirst : (msbBits v ++ [b]).drop 1 ++ bs = (msbBits v ++ b :: bs).drop 1 := by
      rw [List.append_cons (msbBits v) b bs, List.drop_append_of_le_length (l₁ := msbBits v ++ [b]) (by simp)]
    rw [List.foldl_cons, ih, msbBits_shiftIn, hfirst, List.drop_drop, List.length_cons, Nat.add_comm]

theorem msbBits_injective {n : Nat} : Function.Injective (msbBits : BitVec n → Bits) := fun v w h => by
  refine BitVec.eq_of_getMsbD_eq fun i hi => ?_
  exact (List.map_inj_left.mp h) i (List.mem_range.mpr hi)

/-- R15: the value whose bits are the last `n` of a sequence. -/
def wordOf (n : Nat) (bs : Bits) : BitVec n := bs.foldl shiftIn 0

theorem wordOf_concat (n : Nat) (bs : Bits) (b : Bool) : wordOf n (bs ++ [b]) = shiftIn (wordOf n bs) b :=
  List.foldl_concat _ _ _ _

/-- R53: `n` bits fill a register of `n` bits, whatever it held. -/
theorem msbBits_foldl_of_length {n : Nat} (v : BitVec n) {bs : Bits} (h : bs.length = n) :
    msbBits (bs.foldl shiftIn v) = bs := by
  rw [msbBits_foldl_shiftIn, h]
  exact List.drop_left' (length_msbBits v)

theorem foldl_shiftIn_of_length {n : Nat} (v : BitVec n) {bs : Bits} (h : bs.length = n) :
    bs.foldl shiftIn v = wordOf n bs :=
  msbBits_injective ((msbBits_foldl_of_length v h).trans (msbBits_foldl_of_length 0 h).symm)

theorem msbBits_wordOf {n : Nat} {bs : Bits} (h : bs.length = n) : msbBits (wordOf n bs) = bs := msbBits_foldl_of_length 0 h

/-- R53: a register that has taken in at least its width holds the last bits. -/
theorem msbBits_wordOf_of_le {n : Nat} {bs : Bits} (h : n ≤ bs.length) :
    msbBits (wordOf n bs) = slice bs (bs.length - n) n := by
  rw [wordOf, msbBits_foldl_shiftIn, List.drop_append, List.drop_eq_nil_of_le (by simpa using h), length_msbBits,
    List.nil_append, slice, List.take_of_length_le (by rw [List.length_drop]; omega)]

/-! ### Distance in bits (R14, R165) -/

/-- R15: the serial bits are the bits from the lowest on, in reverse. -/
theorem msbBits_eq_reverse {n : Nat} (v : BitVec n) : msbBits v = ((List.range n).map v.getLsbD).reverse := by
  refine List.ext_getElem (by simp) fun i hi _ => ?_
  rw [length_msbBits] at hi
  simp [msbBits, BitVec.getMsbD_eq_getLsbD, hi]

theorem popcount_eq_countP_msbBits {n : Nat} (v : BitVec n) : popcount v = (msbBits v).countP id := by
  rw [msbBits_eq_reverse, List.countP_reverse, List.countP_map]
  rfl

theorem bitsApart_msbBits {n : Nat} (v w : BitVec n) : bitsApart (msbBits v) (msbBits w) = hd v w := by
  rw [bitsApart, hd, popcount_eq_countP_msbBits, msbBits, msbBits, msbBits, List.zip_map', List.countP_map, List.countP_map]
  refine List.countP_congr fun i _ => ?_
  simp

theorem bitsApart_self (bs : Bits) : bitsApart bs bs = 0 := by
  induction bs with
  | nil => rfl
  | cons b bs ih => simpa [bitsApart] using ih

end Sys2Proof.Machine
end

section
/-! PROOFS. Reception of a packet (spec/42_rx_sync_framer.md R164 to R166): runs of bits without an event, the search for the
synchronisation pattern, the groups of a packet one byte after another, and the emission at its last bit. -/

namespace Sys2Proof.Machine

/-! ### Runs without an event (R142) -/

/-- The bits of a run, received in order, have no event and lead from one content of `RXF` to another. -/
inductive RxQuiet (c : Cfg) : Rxf → Bits → Rxf → Prop
  | nil (r : Rxf) : RxQuiet c r [] r
  | cons {r r' r'' : Rxf} {b : Bool} {bs : Bits} : rxStep c r b = .ok (r', none) → RxQuiet c r' bs r'' →
      RxQuiet c r (b :: bs) r''

theorem RxQuiet.append {c : Cfg} {r r' r'' : Rxf} {as bs : Bits} (ha : RxQuiet c r as r') (hb : RxQuiet c r' bs r'') :
    RxQuiet c r (as ++ bs) r'' := by
  induction ha with
  | nil r => exact hb
  | cons hs _ ih => exact .cons hs (ih hb)

theorem RxQuiet.concat {c : Cfg} {r r' r'' : Rxf} {bs : Bits} {b : Bool} (h : RxQuiet c r bs r')
    (hs : rxStep c r' b = .ok (r'', none)) : RxQuiet c r (bs ++ [b]) r'' := h.append (.cons hs (.nil r''))

/-- A part of a run without an event is one. -/
theorem RxQuiet.take {c : Cfg} {r r' : Rxf} {bs : Bits} (h : RxQuiet c r bs r') (k : Nat) :
    ∃ p, RxQuiet c r (bs.take k) p := by
  induction h generalizing k with
  | nil r => exact ⟨r, by rw [List.take_nil]; exact .nil r⟩
  | cons hs _ ih =>
    cases k with
    | zero => exact ⟨_, .nil _⟩
    | succ k => exact (ih k).imp fun _ hp => .cons hs hp

/-- Bits that each do `f`, as long as `P` says that this many may still come. -/
theorem RxQuiet.foldl {c : Cfg} {f : Rxf → Bool → Rxf} {P : Rxf → Nat → Prop}
    (hstep : ∀ r n b, P r (n + 1) → rxStep c r b = .ok (f r b, none) ∧ P (f r b) n) (bs : Bits) {r : Rxf}
    (h : P r bs.length) : RxQuiet c r bs (bs.foldl f r) := by
  induction bs generalizing r with
  | nil => exact .nil r
  | cons b bs ih =>
    obtain ⟨hs, hP⟩ := hstep r bs.length b h
    exact .cons hs (ih hP)

/-- R142: such a run as commands: only `RXF` and the response change, and the response is `Ok`. -/
theorem RxQuiet.execAll {s : State} {bs : Bits} {r : Rxf} (h : RxQuiet s.cfg s.rx bs r) :
    ∃ v, execAll (rxBits bs) s = .next { s with rx := r, resp := v } ∧ (0 < bs.length → v = some .ok) := by
  induction bs generalizing s with
  | nil =>
    cases h
    exact ⟨s.resp, rfl, nofun⟩
  | cons b bs ih =>
    cases h with
    | cons hs hrest =>
      obtain ⟨v, hrun, hv⟩ := ih (s := { s with rx := _, resp := some .ok }) hrest
      refine ⟨v, (execAll_cons_next _ _ _ _).mpr ⟨_, execRxbit_of_quiet hs, hrun⟩, fun _ => ?_⟩
      cases bs with
      | nil => exact (congrArg State.resp (Host.Outcome.next.inj hrun)).symm
      | cons => exact hv (Nat.succ_pos _)

/-- The last bit of a run emits a packet, and no bit before it has an event. -/
def RxEmits (c : Cfg) (r : Rxf) (bs : Bits) (pkt : DecodedPacket) : Prop :=
  ∃ init b p r', bs = init ++ [b] ∧ RxQuiet c r init p ∧ rxStep c p b = .ok (r', some (.packetEmitted pkt))

theorem RxQuiet.append_emits {c : Cfg} {r r' : Rxf} {as bs : Bits} {pkt : DecodedPacket} (ha : RxQuiet c r as r')
    (hb : RxEmits c r' bs pkt) : RxEmits c r (as ++ bs) pkt := by
  obtain ⟨init, b, p, r'', rfl, hq, hs⟩ := hb
  exact ⟨as ++ init, b, p, r'', (List.append_assoc _ _ _).symm, ha.append hq, hs⟩

/-- Before its last bit such a run has no event. -/
theorem RxEmits.take {c : Cfg} {r : Rxf} {bs : Bits} {pkt : DecodedPacket} (h : RxEmits c r bs pkt) {k : Nat}
    (hk : k < bs.length) : ∃ p, RxQuiet c r (bs.take k) p := by
  obtain ⟨init, b, p, r', rfl, hq, -⟩ := h
  rw [List.take_append_of_le_length (by simpa [Nat.lt_succ_iff] using hk)]
  exact hq.take k

/-- R144, R147, R181: such a run as commands: the packet is the last response, it is counted once, and the receiver is cleared. -/
theorem RxEmits.execAll {s : State} {bs : Bits} {pkt : DecodedPacket} (h : RxEmits s.cfg s.rx bs pkt)
    (hbin : pkt.correctedBitCount < histBins) :
    ∃ t, execAll (rxBits bs) s = .next t ∧ t.resp = some (.packet pkt) ∧ rxClear t.rx = t.rx ∧
      t.stat.nEmitted = s.stat.nEmitted + 1 ∧ eventTotal t.stat = eventTotal s.stat + 1 ∧ t.tx = s.tx := by
  obtain ⟨init, b, p, r', rfl, hq, hs⟩ := h
  obtain ⟨v, hrun, -⟩ := hq.execAll
  have hrec := record_packetEmitted s.stat hbin
  have hlast := execRxbit_of_event (s := { s with rx := p, resp := v }) hs hrec
  have hall := (execAll_append (rxBits init) [.rxbit b] s _).mpr ⟨_, hrun, (execAll_cons_next _ _ _ _).mpr ⟨_, hlast, rfl⟩⟩
  obtain ⟨-, -, htotal⟩ := record_counters hrec
  rw [show rxBits (init ++ [b]) = rxBits init ++ [.rxbit b] from List.map_append]
  exact ⟨_, hall, rfl, rxStep_event_clears hs, rfl, htotal, rfl⟩

/-! ### Slices (R57) -/

theorem slice_add (s : Bits) (p m n : Nat) : slice s p (m + n) = slice s p m ++ slice s (p + m) n := by
  simp only [slice, List.take_add, List.drop_drop]

theorem slice_append_left {as : Bits} (bs : Bits) {p n : Nat} (h : p + n ≤ as.length) : slice (as ++ bs) p n = slice as p n := by
  rw [slice, slice, List.drop_append_of_le_length (by omega), List.take_append_of_le_length (by rw [List.length_drop]; omega)]

theorem length_slice {s : Bits} {p n : Nat} (h : p + n ≤ s.length) : (slice s p n).length = n := by
  rw [slice, List.length_take, List.length_drop]
  omega

theorem slice_zero (s : Bits) (n : Nat) : slice s 0 n = s.take n := by rw [slice, List.drop_zero]

theorem slice_all (s : Bits) : slice s 0 s.length = s := (slice_zero s _).trans List.take_length

/-- The last of `n + 1` bits, and the `n` bits before it. -/
theorem eq_concat_of_length {bs : Bits} {n : Nat} (h : bs.length = n + 1) : ∃ init b, bs = init ++ [b] ∧ init.length = n := by
  obtain rfl | ⟨init, b, rfl⟩ := bs.eq_nil_or_concat'
  · exact absurd h (Nat.succ_ne_zero n).symm
  · exact ⟨init, b, rfl, by simpa using h⟩

/-! ### The search (R148 to R150, R166) -/

/-- R143: the bits of the synchronisation pattern. -/
def syncPattern (c : Cfg) : Bits := msbBits c.preamble ++ msbBits c.startMarker

theorem msbBits_append {m n : Nat} (v : BitVec m) (w : BitVec n) : msbBits (v ++ w) = msbBits v ++ msbBits w := by
  refine List.ext_getElem (by simp) fun i hi _ => ?_
  simp only [msbBits, List.getElem_map, List.getElem_range, List.getElem_append, List.length_map, List.length_range,
    BitVec.getMsbD_append]
  split <;> simp_all

theorem syncPattern_eq (c : Cfg) : syncPattern c = msbBits (sync24 c) := (msbBits_append _ _).symm

/-- A receiver that was cleared, has taken in `bs` since and has found no pattern. -/
def hunting (r : Rxf) (bs : Bits) : Rxf :=
  { rxClear r with win := wordOf 24 bs, wfill := BitVec.ofNat 5 (min bs.length 24) }

/-- A receiver that has just found the pattern (R149). -/
def headerStart (r : Rxf) : Rxf := { rxClear r with st := .header }

theorem fillNext_hunting (r : Rxf) (bs : Bits) (b : Bool) : fillNext (hunting r bs) = min (bs ++ [b]).length 24 := by
  have hfill : (BitVec.ofNat 5 (min bs.length 24)).toNat = min bs.length 24 := by
    rw [BitVec.toNat_ofNat, Nat.mod_eq_of_lt (by omega)]
  have hlen : (bs ++ [b]).length = bs.length + 1 := List.length_append
  rw [fillNext, windowBits, hunting, hfill, hlen]
  omega

theorem hunting_concat (r : Rxf) (bs : Bits) (b : Bool) :
    hunting r (bs ++ [b]) = { hunting r bs with
      win := shiftIn (hunting r bs).win b, wfill := BitVec.ofNat 5 (min (bs ++ [b]).length 24) } := by
  rw [hunting, wordOf_concat]
  rfl

/-- R143: the match test looks at the last 24 bits. -/
theorem syncMatch_hunting (c : Cfg) (r : Rxf) (bs : Bits) (b : Bool) :
    syncMatch c (shiftIn (hunting r bs).win b) (fillNext (hunting r bs)) = true ↔
      24 ≤ (bs ++ [b]).length ∧ bitsApart (slice (bs ++ [b]) ((bs ++ [b]).length - 24) 24) (syncPattern c) ≤ c.syncTol := by
  rw [syncMatch_iff, fillNext_hunting r bs b, show (hunting r bs).win = wordOf 24 bs from rfl, ← wordOf_concat]
  rw [show min (bs ++ [b]).length 24 = 24 ↔ 24 ≤ (bs ++ [b]).length by omega]
  refine and_congr_right fun hlen => ?_
  rw [← msbBits_wordOf_of_le hlen, syncPattern_eq, bitsApart_msbBits]

/-- R150: bits in which no window is near the pattern leave the receiver searching. -/
theorem quiet_hunting {c : Cfg} (r : Rxf) (bs : Bits)
    (h : ∀ p, p + 24 ≤ bs.length → c.syncTol < bitsApart (slice bs p 24) (syncPattern c)) :
    RxQuiet c (rxClear r) bs (hunting r bs) := by
  induction bs using List.reverseRecOn with
  | nil => exact .nil _
  | append_singleton bs b ih =>
    have hgrow : (bs ++ [b]).length = bs.length + 1 := List.length_append
    have hbefore := ih fun p hp => slice_append_left [b] hp ▸ h p (by omega)
    refine hbefore.concat ((rxStep_searching rfl b).trans ?_)
    rw [searchBit_of_mismatch ((syncMatch_hunting c r bs b).not.mpr fun ⟨hlen, hnear⟩ => ?_), fillNext_hunting r bs b]
    · rw [hunting_concat]
    · exact absurd hnear (Nat.not_le.mpr (h _ (by omega)))

/-- R149, R166: the first window near the pattern, after noise in which none begins, is the sync point. -/
theorem quiet_headerStart {c : Cfg} (r : Rxf) {noise w : Bits} (hw : w.length = 24)
    (hnoise : ∀ p, p < noise.length → c.syncTol < bitsApart (slice (noise ++ w) p 24) (syncPattern c))
    (hsync : bitsApart w (syncPattern c) ≤ c.syncTol) : RxQuiet c (rxClear r) (noise ++ w) (headerStart r) := by
  obtain ⟨init, b, rfl, hinit⟩ := eq_concat_of_length hw
  have hlen : (noise ++ init ++ [b]).length = noise.length + 24 := by simp only [List.length_append, hinit, List.length_singleton]
  rw [← List.append_assoc] at hnoise ⊢
  have hlast : slice (noise ++ init ++ [b]) ((noise ++ init ++ [b]).length - 24) 24 = init ++ [b] :=
    slice_of_append (before := noise) (after := []) (by simp) (by omega) hw
  have hbefore := quiet_hunting (c := c) r (noise ++ init) fun p hp =>
    slice_append_left [b] hp ▸ hnoise p (by rw [List.length_append] at hp; omega)
  refine hbefore.concat ((rxStep_searching rfl b).trans ?_)
  rw [searchBit_of_match ((syncMatch_hunting c r _ b).mpr ⟨by omega, hlast.symm ▸ hsync⟩)]
  rfl

/-! ### One group (R151, R152) -/

/-- R151: a whole group shifted in: the other registers as before, the count seven more, the group register the seven bits. -/
theorem foldl_shiftGroup (r : Rxf) {bs : Bits} (h : r.bitcnt.toNat + bs.length < 4096) :
    ∃ sh n, bs.foldl shiftGroup r = { r with sh := sh, bitcnt := n } ∧ n.toNat = r.bitcnt.toNat + bs.length ∧
      groupOf sh = bs.foldl shiftIn (groupOf r.sh) := by
  have hshift : ∀ (sh : BitVec 8) (b : Bool), groupOf (shiftIn sh b &&& 0x7F) = shiftIn (groupOf sh) b := by decide
  induction bs generalizing r with
  | nil => exact ⟨r.sh, r.bitcnt, rfl, rfl, rfl⟩
  | cons b bs ih =>
    rw [List.length_cons] at h ⊢
    have hcount : (shiftGroup r b).bitcnt.toNat = r.bitcnt.toNat + 1 := bitcnt_succ (by omega)
    obtain ⟨sh, n, he, hn, hg⟩ := ih (shiftGroup r b) (by omega)
    refine ⟨sh, n, he, by omega, hg.trans ?_⟩
    rw [List.foldl_cons, shiftGroup_sh, hshift]

/-- R151, R152: seven bits, received at the boundary of a group, do what completing the group and the test at the end of the state
do. -/
theorem quiet_group {c : Cfg} {r : Rxf} {m : Nat} {g : Bits} (hst : r.st = .header ∨ r.st = .payload)
    (hm : r.bitcnt.toNat = m) (h7 : m % 7 = 0) (hmax : m + 7 < 4096) (hg : g.length = 7) :
    ∃ sh n, n.toNat = m + 7 ∧ groupOf sh = wordOf 7 g ∧ ∀ q r',
      completeGroup c { r with sh := sh, bitcnt := n } (m + 7) = .ok q → groupEnd r.st q (m + 7) = (r', none) →
      RxQuiet c r g r' := by
  obtain ⟨sh, n, hfold, hn, hgroup⟩ := foldl_shiftGroup r (bs := g) (by omega)
  refine ⟨sh, n, by omega, hgroup.trans (foldl_shiftIn_of_length _ hg), fun q r' hq hend => ?_⟩
  obtain ⟨init, b, rfl, hinit⟩ := eq_concat_of_length hg
  have hinside := RxQuiet.foldl (c := c) (f := shiftGroup) (r := r)
    (P := fun p k => (p.st = .header ∨ p.st = .payload) ∧ p.bitcnt.toNat % 7 + k < 7 ∧ p.bitcnt.toNat + k < 4096)
    (fun p k b ⟨hst, h7, hwrap⟩ => by
      have hcount : (shiftGroup p b).bitcnt.toNat = p.bitcnt.toNat + 1 := bitcnt_succ (by omega)
      exact ⟨rxStep_inside hst (by omega), hst, by omega, by omega⟩)
    init ⟨hst, by omega, by omega⟩
  obtain ⟨sh', n', hbefore, hn', -⟩ := foldl_shiftGroup r (bs := init) (by omega)
  rw [List.foldl_concat] at hfold
  refine hinside.concat ?_
  rw [hbefore] at hfold ⊢
  have hcount : n'.toNat + 1 = m + 7 := by omega
  have hgroup' : completeGroup c (shiftGroup { r with sh := sh', bitcnt := n' } b) (n'.toNat + 1) = .ok q := by
    rw [hfold, hcount]
    exact hq
  rw [← hend, ← hcount]
  exact rxStep_of_completeGroup (r := { r with sh := sh', bitcnt := n' }) hst hgroup'

end Sys2Proof.Machine
end

section
/-! PROOFS. Reception of a packet, second part (spec/42_rx_sync_framer.md R152 to R157): its bytes one after another, and its end
marker. -/

namespace Sys2Proof.Machine

/-! ### The groups of a packet (R75, R165) -/

/-- R124: the bytes a packet sends as groups. -/
def packetBytes (msg : List Byte) (q : Byte) : List Byte := mkhdr msg.length q ++ msg

@[simp] theorem length_packetBytes (msg : List Byte) (q : Byte) : (packetBytes msg q).length = 4 + msg.length := by
  rw [packetBytes, List.length_append, length_mkhdr]

/-- R75: the two groups of byte `j` of a packet. -/
theorem slice_packetByte (c : Cfg) (msg : List Byte) (q : Byte) {j : Nat} {v : Byte} (hv : (packetBytes msg q)[j]? = some v) :
    slice (packetBits c msg q) (24 + 7 * (2 * j)) 7 = msbBits (enc c (highNibble v)) ∧
      slice (packetBits c msg q) (24 + 7 * (2 * j + 1)) 7 = msbBits (enc c (lowNibble v)) := by
  obtain ⟨hj, rfl⟩ := List.getElem?_eq_some_iff.mp hv
  have hsplit : packetBytes msg q = (packetBytes msg q).take j ++ (packetBytes msg q)[j] :: (packetBytes msg q).drop (j + 1) := by
    rw [← List.drop_eq_getElem_cons hj, List.take_append_drop]
  generalize (packetBytes msg q)[j] = v at hsplit ⊢
  have hbits : packetBits c msg q = (syncPattern c ++ ((packetBytes msg q).take j).flatMap (encByte c)) ++
      (msbBits (enc c (highNibble v)) ++ (msbBits (enc c (lowNibble v)) ++
        (((packetBytes msg q).drop (j + 1)).flatMap (encByte c) ++ msbBits c.endMarker))) := by
    rw [packetBits, ← packetBytes, congrArg (List.flatMap (encByte c)) hsplit]
    simp only [syncPattern, List.flatMap_append, List.flatMap_cons, List.append_assoc, encByte]
  have hlen : (syncPattern c ++ ((packetBytes msg q).take j).flatMap (encByte c)).length = 24 + 14 * j := by
    simp only [syncPattern, List.length_append, length_msbBits, length_flatMap_encByte, List.length_take_of_le hj.le]
  refine ⟨slice_of_append hbits (by omega) (length_msbBits _), ?_⟩
  rw [← List.append_assoc] at hbits
  exact slice_of_append hbits (by rw [List.length_append, length_msbBits]; omega) (length_msbBits _)

/-- R108, R165: a group with at most one wrong bit decodes to the nibble sent, and is counted when it has one. -/
theorem dec_of_bitsApart {c : Cfg} (h : c.wf = true) {g : Bits} (hg : g.length = 7) {v : Nibble}
    (hnear : bitsApart g (msbBits (enc c v)) ≤ 1) :
    ∃ d, dec c (wordOf 7 g) = some d ∧ d.nibble = v ∧ d.corrected = (g != msbBits (enc c v)) := by
  have hbits := msbBits_wordOf hg
  generalize wordOf 7 g = w at hbits
  subst hbits
  rw [bitsApart_msbBits, hd_comm] at hnear
  have herr : w = enc c v ^^^ (enc c v ^^^ w) := by rw [← BitVec.xor_assoc, BitVec.xor_self, BitVec.zero_xor]
  have hfew : popcount (enc c v ^^^ w) < 3 := Nat.lt_of_le_of_lt hnear (by decide)
  obtain he | ⟨i, hi, he⟩ | ⟨i, hi, j, hj, hne, he⟩ := bits_of_popcount_lt_three (enc c v ^^^ w) hfew
  · obtain rfl := BitVec.xor_eq_zero_iff.mp he
    exact ⟨_, dec_enc c v, rfl, by simp⟩
  · rw [he] at herr
    have hdec := dec_oneFlip h v hi
    rw [← herr] at hdec
    refine ⟨_, hdec, rfl, (bne_iff_ne.mpr fun heq => ?_).symm⟩
    rw [msbBits_injective heq, dec_enc] at hdec
    exact absurd (congrArg DecResult.corrected (Option.some.inj hdec)) nofun
  · have htwo := popcount_twoBits i hi j hj hne
    rw [hd, he, htwo] at hnear
    exact absurd hnear (by decide)

/-! ### One byte (R152 to R156) -/

/-- Two received groups that decode to the nibbles of the byte `v`. -/
structure ByteGroups (c : Cfg) (g0 g1 : Bits) (d0 d1 : DecResult) (v : Byte) : Prop where
  length_high : g0.length = 7
  length_low : g1.length = 7
  dec_high : dec c (wordOf 7 g0) = some d0
  dec_low : dec c (wordOf 7 g1) = some d1
  byte_eq : joinNibbles d0.nibble d1.nibble = v

/-- R152, R153, R155: the two groups of byte `i` store it and do what the test at the end of the state does. -/
theorem quiet_byte {c : Cfg} {r : Rxf} {i : Nat} {g0 g1 : Bits} {d0 d1 : DecResult} {v : Byte}
    (hst : r.st = .header ∨ r.st = .payload) (hi : r.bitcnt.toNat = 14 * i) (hmax : i < bufBytes)
    (hg : ByteGroups c g0 g1 d0 d1 v) :
    ∃ sh n, n.toNat = 14 * (i + 1) ∧ ∀ q r',
      storeByte { r with sh := sh, bitcnt := n, hi := d0.nibble, corr := addCorrected (addCorrected r.corr d0) d1 } i v = .ok q →
      groupEnd r.st q (14 * (i + 1)) = (r', none) → RxQuiet c r (g0 ++ g1) r' := by
  rw [bufBytes] at hmax
  obtain ⟨sh0, n0, hn0, hw0, hquiet0⟩ := quiet_group (c := c) hst hi (by omega) (by omega) hg.length_high
  have hfirst := hquiet0 _ _ (completeGroup_even (hw0 ▸ hg.dec_high) (by omega)) (groupEnd_of_mod_ne _ _ (by omega))
  obtain ⟨sh1, n1, hn1, hw1, hquiet1⟩ := quiet_group (c := c) (g := g1)
    (r := { r with sh := sh0, bitcnt := n0, corr := addCorrected r.corr d0, hi := d0.nibble }) hst hn0 (by omega) (by omega)
    hg.length_low
  refine ⟨sh1, n1, hn1, fun q r' hstore hend => hfirst.append (hquiet1 q r' ?_ hend)⟩
  rw [← hg.byte_eq] at hstore
  exact (completeGroup_odd (i := i) (hw1 ▸ hg.dec_low) rfl).trans hstore

/-! ### The packet under way (R153 to R156) -/

/-- The receiver after `j` of the bytes that the packet of `msg` and `q` sends as groups, with `n` corrections among them. -/
structure PacketUnderWay (msg : List Byte) (q : Byte) (j n : Nat) (r : Rxf) : Prop where
  corr_eq : r.corr.toNat = n
  unc_clear : r.unc = false
  header : j < 4 → r.st = .header ∧ r.bitcnt.toNat = 14 * j
  payload : 4 ≤ j → j < 4 + msg.length → r.st = .payload ∧ r.bitcnt.toNat = 14 * (j - 4)
  endCheck : j = 4 + msg.length → r.st = .endCheck ∧ r.bitcnt = 0
  hdr_eq : ∀ i, i < j → i < 4 → r.hdr.get? i = (mkhdr msg.length q)[i]?
  rxbuf_eq : ∀ i, i + 4 < j → r.rxbuf.get? i = msg[i]?

theorem packetUnderWay_headerStart (msg : List Byte) (q : Byte) (r : Rxf) : PacketUnderWay msg q 0 0 (headerStart r) where
  corr_eq := rfl
  unc_clear := rfl
  header _ := ⟨rfl, rfl⟩
  payload := nofun
  endCheck h := by omega
  hdr_eq _ hi := absurd hi (Nat.not_lt_zero _)
  rxbuf_eq _ hi := absurd hi (Nat.not_lt_zero _)

/-- R28: after the fourth byte the header is the one sent. -/
theorem PacketUnderWay.hdr {msg : List Byte} {q : Byte} {j n : Nat} {r : Rxf} (h : PacketUnderWay msg q j n r) (hj : 4 ≤ j) :
    r.hdr = ⟨BitVec.ofNat 8 msg.length, q, 0, 0⟩ := by
  have h0 := Option.some.inj (h.hdr_eq 0 (by omega) (by omega))
  have h1 := Option.some.inj (h.hdr_eq 1 (by omega) (by omega))
  have h2 := Option.some.inj (h.hdr_eq 2 (by omega) (by omega))
  have h3 := Option.some.inj (h.hdr_eq 3 (by omega) (by omega))
  cases hr : r.hdr
  simp only [hr] at h0 h1 h2 h3
  simp [h0, h1, h2, h3]

/-- R54: a byte is its two nibbles. -/
theorem joinNibbles_of_byte : ∀ v : Byte, joinNibbles (highNibble v) (lowNibble v) = v := by decide

theorem packetBytes_header {msg : List Byte} {q : Byte} {j : Nat} (hj : j < 4) :
    (packetBytes msg q)[j]? = (mkhdr msg.length q)[j]? := List.getElem?_append_left hj

theorem packetBytes_payload (msg : List Byte) (q : Byte) (i : Nat) : (packetBytes msg q)[i + 4]? = msg[i]? :=
  List.getElem?_append_right (Nat.le_add_left 4 i)

/-- R123: the length byte counts the message. -/
theorem plen_toNat {len : Nat} (h : len ≤ 255) : (BitVec.ofNat 8 len).toNat = len := Nat.mod_eq_of_lt (by omega)

/-- R145: two groups add their corrections. -/
theorem addCorrected_twice {x : BitVec 10} {n : Nat} (hx : x.toNat = n) (hn : n + 2 < 1024) (d0 d1 : DecResult) :
    (addCorrected (addCorrected x d0) d1).toNat = n + (d0.corrected.toNat + d1.corrected.toNat) := by
  have hone := Bool.toNat_le d0.corrected
  have hfirst : (addCorrected x d0).toNat = n + d0.corrected.toNat := by rw [addCorrected_toNat (by omega), hx]
  rw [addCorrected_toNat (by omega), hfirst, Nat.add_assoc]

section
variable {c : Cfg} {msg : List Byte} {q v : Byte} {j n : Nat} {r : Rxf} {g0 g1 : Bits} {d0 d1 : DecResult}

/-- R153, R154: one more header byte; the fourth ends the header, whose length byte is not 0. -/
theorem PacketUnderWay.headerByte (h : PacketUnderWay msg q j n r) (h1 : 1 ≤ msg.length) (h255 : msg.length ≤ 255) (hj : j < 4)
    (hn : n + 2 < 1024) (hv : (packetBytes msg q)[j]? = some v) (hg : ByteGroups c g0 g1 d0 d1 v) :
    ∃ r', RxQuiet c r (g0 ++ g1) r' ∧ PacketUnderWay msg q (j + 1) (n + (d0.corrected.toNat + d1.corrected.toNat)) r' := by
  obtain ⟨hst, hbit⟩ := h.header hj
  obtain ⟨sh, m, hm, hquiet⟩ := quiet_byte (.inl hst) hbit (by rw [bufBytes]; omega) hg
  obtain ⟨hdr', hset⟩ := r.hdr.exists_set? v hj
  rw [show groupEnd r.st = headerEnd by rw [hst, groupEnd_header]] at hquiet
  have hnext := fun r' => hquiet _ r' (storeByte_of_header hst hset)
  have hcorr := addCorrected_twice h.corr_eq hn d0 d1
  have hhdr : ∀ i, i < j + 1 → i < 4 → hdr'.get? i = (mkhdr msg.length q)[i]? := fun i hi hi4 => by
    rw [Header.get?_set? hset]
    split
    · next heq => rw [heq, ← hv, packetBytes_header hj]
    · exact h.hdr_eq i (by omega) hi4
  by_cases hlast : j = 3
  · have hplen : hdr'.plen ≠ 0 := fun h0 => by
      have hlen : hdr'.plen = BitVec.ofNat 8 msg.length := Option.some.inj (hhdr 0 (by omega) (by omega))
      have hzero : msg.length = 0 := (plen_toNat h255).symm.trans (congrArg BitVec.toNat (hlen.symm.trans h0))
      omega
    refine ⟨_, hnext _ ((if_pos (by omega)).trans (if_neg hplen)), ?_⟩
    exact {
      corr_eq := hcorr
      unc_clear := h.unc_clear
      header := by omega
      payload := fun _ _ => ⟨rfl, by simp [hlast]⟩
      endCheck := by omega
      hdr_eq := hhdr
      rxbuf_eq := by omega }
  · refine ⟨_, hnext _ (if_neg (by omega)), ?_⟩
    exact {
      corr_eq := hcorr
      unc_clear := h.unc_clear
      header := fun _ => ⟨hst, hm⟩
      payload := by omega
      endCheck := by omega
      hdr_eq := hhdr
      rxbuf_eq := by omega }

/-- R155, R156: one more payload byte; the last ends the payload. -/
theorem PacketUnderWay.payloadByte {i : Nat} (h : PacketUnderWay msg q (i + 4) n r) (h255 : msg.length ≤ 255)
    (hi : i < msg.length) (hn : n + 2 < 1024) (hv : (packetBytes msg q)[i + 4]? = some v)
    (hg : ByteGroups c g0 g1 d0 d1 v) :
    ∃ r', RxQuiet c r (g0 ++ g1) r' ∧
      PacketUnderWay msg q (i + 4 + 1) (n + (d0.corrected.toNat + d1.corrected.toNat)) r' := by
  have hroom : i < bufBytes := by rw [bufBytes]; omega
  obtain ⟨hst, hbit⟩ := h.payload (by omega) (by omega)
  rw [Nat.add_sub_cancel] at hbit
  obtain ⟨sh, m, hm, hquiet⟩ := quiet_byte (.inr hst) hbit hroom hg
  rw [show groupEnd r.st = payloadEnd by rw [hst, groupEnd_payload]] at hquiet
  have hnext := fun r' => hquiet _ r' (storeByte_of_payload v hst hroom)
  have hcorr := addCorrected_twice h.corr_eq hn d0 d1
  have hplen : r.hdr.plen.toNat = msg.length := by rw [h.hdr (by omega), plen_toNat h255]
  have hhdr : ∀ a, a < i + 4 + 1 → a < 4 → r.hdr.get? a = (mkhdr msg.length q)[a]? := fun a _ ha => h.hdr_eq a (by omega) ha
  have hbuf : ∀ a, a + 4 < i + 4 + 1 → Memory.get? (Cells.set r.rxbuf i v) a = msg[a]? := fun a ha => by
    rw [Memory.get?_set]
    split
    · next heq => rw [heq, ← hv, packetBytes_payload]
    · exact h.rxbuf_eq a (by omega)
  by_cases hlast : i + 1 = msg.length
  · refine ⟨_, hnext _ (if_pos (by rw [hplen, hlast])), ?_⟩
    exact {
      corr_eq := hcorr
      unc_clear := h.unc_clear
      header := by omega
      payload := by omega
      endCheck := fun _ => ⟨rfl, rfl⟩
      hdr_eq := hhdr
      rxbuf_eq := hbuf }
  · refine ⟨_, hnext _ (if_neg (by rw [hplen]; omega)), ?_⟩
    exact {
      corr_eq := hcorr
      unc_clear := h.unc_clear
      header := by omega
      payload := fun _ _ => ⟨hst, hm.trans (by omega)⟩
      endCheck := by omega
      hdr_eq := hhdr
      rxbuf_eq := hbuf }

end

/-! ### The groups of a damaged packet (R165) -/

/-- R165: `rcvd` has at most one wrong bit in each group of the packet of `msg` and `q`. -/
def GroupsNear (c : Cfg) (msg : List Byte) (q : Byte) (rcvd : Bits) : Prop :=
  ∀ k, k < 8 + 2 * msg.length → bitsApart (slice rcvd (24 + 7 * k) 7) (slice (packetBits c msg q) (24 + 7 * k) 7) ≤ 1

/-- R165: how many of the first `m` groups have a wrong bit. -/
def damagedGroups (c : Cfg) (msg : List Byte) (q : Byte) (rcvd : Bits) (m : Nat) : Nat :=
  (List.range m).countP fun k => slice rcvd (24 + 7 * k) 7 != slice (packetBits c msg q) (24 + 7 * k) 7

theorem damagedGroups_le (c : Cfg) (msg : List Byte) (q : Byte) (rcvd : Bits) (m : Nat) : damagedGroups c msg q rcvd m ≤ m :=
  List.countP_le_length.trans_eq List.length_range

theorem damagedGroups_succ (c : Cfg) (msg : List Byte) (q : Byte) (rcvd : Bits) (m : Nat) :
    damagedGroups c msg q rcvd (m + 1) = damagedGroups c msg q rcvd m +
      (slice rcvd (24 + 7 * m) 7 != slice (packetBits c msg q) (24 + 7 * m) 7).toNat := by
  rw [damagedGroups, List.range_succ, List.countP_append, List.countP_singleton, ← damagedGroups]
  cases slice rcvd (24 + 7 * m) 7 != slice (packetBits c msg q) (24 + 7 * m) 7 <;> rfl

/-- R164, R165: after the groups of `j` bytes the packet is under way with a correction for each damaged group. -/
theorem quiet_groups {c : Cfg} {msg : List Byte} {q : Byte} {rcvd : Bits} (hc : c.wf = true) (h1 : 1 ≤ msg.length)
    (h255 : msg.length ≤ 255) (hlen : rcvd.length = 88 + 14 * msg.length) (hnear : GroupsNear c msg q rcvd) (r : Rxf) {j : Nat}
    (hj : j ≤ 4 + msg.length) :
    ∃ p, RxQuiet c (headerStart r) (slice rcvd 24 (7 * (2 * j))) p ∧
      PacketUnderWay msg q j (damagedGroups c msg q rcvd (2 * j)) p := by
  induction j with
  | zero => exact ⟨headerStart r, .nil _, packetUnderWay_headerStart msg q r⟩
  | succ j ih =>
    obtain ⟨p, hquiet, hp⟩ := ih (by omega)
    have hjlen : j < (packetBytes msg q).length := by rw [length_packetBytes]; omega
    have hv := List.getElem?_eq_getElem hjlen
    obtain ⟨hhigh, hlow⟩ := slice_packetByte c msg q hv
    have hfew := damagedGroups_le c msg q rcvd (2 * j)
    have hg0 : (slice rcvd (24 + 7 * (2 * j)) 7).length = 7 := length_slice (by omega)
    have hg1 : (slice rcvd (24 + 7 * (2 * j + 1)) 7).length = 7 := length_slice (by omega)
    obtain ⟨d0, hd0, hn0, hc0⟩ := dec_of_bitsApart hc hg0 (hhigh ▸ hnear (2 * j) (by omega))
    obtain ⟨d1, hd1, hn1, hc1⟩ := dec_of_bitsApart hc hg1 (hlow ▸ hnear (2 * j + 1) (by omega))
    have hg : ByteGroups c _ _ d0 d1 (packetBytes msg q)[j] :=
      ⟨hg0, hg1, hd0, hd1, by rw [hn0, hn1, joinNibbles_of_byte]⟩
    have hmore : ∃ p', RxQuiet c p (slice rcvd (24 + 7 * (2 * j)) 7 ++ slice rcvd (24 + 7 * (2 * j + 1)) 7) p' ∧
        PacketUnderWay msg q (j + 1)
          (damagedGroups c msg q rcvd (2 * j) + (d0.corrected.toNat + d1.corrected.toNat)) p' := by
      by_cases h4 : j < 4
      · exact hp.headerByte h1 h255 h4 (by omega) hv hg
      · obtain ⟨i, rfl⟩ := Nat.exists_eq_add_of_le' (Nat.not_lt.mp h4)
        exact hp.payloadByte h255 (by omega) (by omega) hv hg
    obtain ⟨p', hquiet', hp'⟩ := hmore
    refine ⟨p', ?_, ?_⟩
    · rw [show 7 * (2 * (j + 1)) = 7 * (2 * j) + 7 + 7 by omega, slice_add, slice_add, List.append_assoc]
      exact hquiet.append hquiet'
    · rw [show 2 * (j + 1) = 2 * j + 1 + 1 by omega, damagedGroups_succ, damagedGroups_succ, Nat.add_assoc, hhigh, hlow, ← hc0,
        ← hc1]
      exact hp'

/-! ### The end marker (R157) -/

/-- R157: a bit of the end marker before its last. -/
def collectBit (r : Rxf) (b : Bool) : Rxf := { r with sh := shiftIn r.sh b, bitcnt := r.bitcnt + 1 }

theorem foldl_collectBit (r : Rxf) {bs : Bits} (h : r.bitcnt.toNat + bs.length < 4096) :
    ∃ n, bs.foldl collectBit r = { r with sh := bs.foldl shiftIn r.sh, bitcnt := n } ∧
      n.toNat = r.bitcnt.toNat + bs.length := by
  induction bs generalizing r with
  | nil => exact ⟨r.bitcnt, rfl, rfl⟩
  | cons b bs ih =>
    rw [List.length_cons] at h ⊢
    have hcount : (collectBit r b).bitcnt.toNat = r.bitcnt.toNat + 1 := bitcnt_succ (by omega)
    obtain ⟨n, he, hn⟩ := ih (collectBit r b) (by omega)
    exact ⟨n, he, by omega⟩

/-- R157: after all its bytes the packet is emitted at the eighth bit of an end marker with at most one wrong bit. -/
theorem emits_endMarker {c : Cfg} (hc : c.wf = true) {msg : List Byte} {q : Byte} {n : Nat} {r : Rxf} {e : Bits}
    (h : PacketUnderWay msg q (4 + msg.length) n r) (h255 : msg.length ≤ 255) (he : e.length = 8)
    (hnear : bitsApart e (msbBits c.endMarker) ≤ 1) : RxEmits c r e ⟨q, msg, n, false⟩ := by
  obtain ⟨hst, hbit⟩ := h.endCheck rfl
  have hhdr := h.hdr (by omega)
  have hzero : r.bitcnt.toNat = 0 := congrArg BitVec.toNat hbit
  obtain ⟨init, b, rfl, hinit⟩ := eq_concat_of_length he
  have hinside := RxQuiet.foldl (c := c) (f := collectBit) (r := r)
    (P := fun p k => p.st = .endCheck ∧ p.bitcnt.toNat + k < 8)
    (fun p k b ⟨hst, hk⟩ => by
      have hcount : (collectBit p b).bitcnt.toNat = p.bitcnt.toNat + 1 := bitcnt_succ (by omega)
      exact ⟨(rxStep_endCheck hst b).trans (endBit_collect (by omega)), hst, by omega⟩)
    init ⟨hst, by omega⟩
  obtain ⟨m, hbefore, hm⟩ := foldl_collectBit r (bs := init) (by omega)
  have hword : shiftIn (init.foldl shiftIn r.sh) b = wordOf 8 (init ++ [b]) :=
    (List.foldl_concat _ _ _ _).symm.trans (foldl_shiftIn_of_length _ he)
  have hmatch : hd (shiftIn (init.foldl shiftIn r.sh) b) c.endMarker ≤ c.endTol := by
    rw [hword, ← bitsApart_msbBits, msbBits_wordOf he, (tolerances_of_wf hc).2]
    exact hnear
  have hload : r.rxbuf.load r.hdr.plen.toNat = .ok msg := by
    rw [hhdr, plen_toNat h255]
    exact (Memory.load_ok_iff _ _ _).mpr ⟨h255, rfl, fun i hi => h.rxbuf_eq i (by omega)⟩
  have hpacket : packetOf r msg = ⟨q, msg, n, false⟩ := by rw [packetOf, hhdr, h.corr_eq, h.unc_clear]
  rw [hbefore] at hinside
  rw [← hpacket]
  have hcount : m.toNat + 1 = 8 := by omega
  have hlast : endBit c { r with sh := init.foldl shiftIn r.sh, bitcnt := m } b = _ := endBit_emit hcount hmatch hload
  rw [← rxStep_endCheck (r := { r with sh := init.foldl shiftIn r.sh, bitcnt := m }) hst b] at hlast
  exact ⟨init, b, _, _, rfl, hinside, hlast⟩

/-! ### The whole packet (R164 to R166) -/

/-- R165, R166: after noise in which no window near the pattern begins, a packet with few wrong bits in each part is emitted, with a
correction for each damaged group. -/
theorem emits_damagedPacket {c : Cfg} (hc : c.wf = true) {msg : List Byte} {q : Byte} {rcvd noise : Bits} {r : Rxf}
    (hr : rxClear r = r) (h1 : 1 ≤ msg.length) (h255 : msg.length ≤ 255) (hlen : rcvd.length = 88 + 14 * msg.length)
    (hnoise : ∀ p, p < noise.length → c.syncTol < bitsApart (slice (noise ++ rcvd) p 24) (syncPattern c))
    (hsync : bitsApart (slice rcvd 0 24) (syncPattern c) ≤ c.syncTol) (hnear : GroupsNear c msg q rcvd)
    (hend : bitsApart (slice rcvd (80 + 14 * msg.length) 8) (msbBits c.endMarker) ≤ 1) :
    RxEmits c r (noise ++ rcvd) ⟨q, msg, damagedGroups c msg q rcvd (8 + 2 * msg.length), false⟩ := by
  have hw : (slice rcvd 0 24).length = 24 := length_slice (by omega)
  have hparts : rcvd = slice rcvd 0 24 ++ (slice rcvd 24 (7 * (2 * (4 + msg.length))) ++
      slice rcvd (80 + 14 * msg.length) 8) := by
    rw [show 80 + 14 * msg.length = 24 + 7 * (2 * (4 + msg.length)) by omega, ← slice_add]
    rw [show slice rcvd 24 = slice rcvd (0 + 24) from rfl, ← slice_add]
    rw [show 24 + (7 * (2 * (4 + msg.length)) + 8) = rcvd.length by omega, slice_all]
  have hpattern : RxQuiet c r (noise ++ slice rcvd 0 24) (headerStart r) := by
    have hq := quiet_headerStart (c := c) r (noise := noise) hw (fun p hp => ?_) hsync
    · rwa [hr] at hq
    · have hfar := hnoise p hp
      rw [hparts, ← List.append_assoc, slice_append_left _ (by rw [List.length_append, hw]; omega)] at hfar
      exact hfar
  obtain ⟨p, hquiet, hp⟩ := quiet_groups hc h1 h255 hlen hnear r (Nat.le_refl _)
  rw [show 2 * (4 + msg.length) = 8 + 2 * msg.length by omega] at hp
  have hlast := hquiet.append_emits (emits_endMarker hc hp h255 (length_slice (by omega)) hend)
  have hall := hpattern.append_emits hlast
  rwa [List.append_assoc, ← hparts] at hall

/-- R124: what a built packet is. -/
theorem build_eq_ok {c : Cfg} {msg : List Byte} {q : Byte} {bits : Bits} (h : build c msg q = .ok bits) :
    1 ≤ msg.length ∧ msg.length ≤ 255 ∧ bits = packetBits c msg q := by
  by_cases hlen : msg.length = 0 ∨ bufBytes < msg.length
  · rw [build, if_pos hlen] at h
    exact absurd h nofun
  · rw [bufBytes] at hlen
    have h1 : 1 ≤ msg.length := by omega
    have h255 : msg.length ≤ 255 := by omega
    exact ⟨h1, h255, Except.ok.inj (h.symm.trans (build_of_length q h1 h255))⟩

theorem slice_syncPattern (c : Cfg) (msg : List Byte) (q : Byte) : slice (packetBits c msg q) 0 24 = syncPattern c := by
  rw [show 24 = 16 + 8 from rfl, slice_add, slice_preamble, slice_startMarker, syncPattern]

/-- R164, R166: an undamaged packet is emitted without a correction. -/
theorem emits_builtPacket {c : Cfg} (hc : c.wf = true) {msg : List Byte} {q : Byte} {noise : Bits} {r : Rxf}
    (hr : rxClear r = r) (h1 : 1 ≤ msg.length) (h255 : msg.length ≤ 255)
    (hnoise : ∀ p, p < noise.length → c.syncTol < bitsApart (slice (noise ++ packetBits c msg q) p 24) (syncPattern c)) :
    RxEmits c r (noise ++ packetBits c msg q) ⟨q, msg, 0, false⟩ := by
  have hclean : damagedGroups c msg q (packetBits c msg q) (8 + 2 * msg.length) = 0 := by
    simp [damagedGroups]
  rw [← hclean]
  refine emits_damagedPacket hc hr h1 h255 (length_packetBits c msg q) hnoise ?_ (fun k _ => ?_) ?_
  · rw [slice_syncPattern, bitsApart_self]
    exact Nat.zero_le _
  · rw [bitsApart_self]
    exact Nat.zero_le 1
  · rw [slice_endMarker, bitsApart_self]
    exact Nat.zero_le 1

/-! ### The pattern against itself (R166) -/

/-- Bits masked away do not add weight. -/
theorem popcount_and_le {n : Nat} (v m : BitVec n) : popcount (v &&& m) ≤ popcount v :=
  List.countP_mono_left fun i _ h => by
    rw [BitVec.getLsbD_and, Bool.and_eq_true] at h
    exact h.1

theorem xor_and_distrib {n : Nat} (v w m : BitVec n) : (v ^^^ w) &&& m = (v &&& m) ^^^ (w &&& m) := by
  ext i hi
  simp [Bool.and_xor_distrib_right]

/-- R143, R166: under `cfg0` the first bits of the pattern against its last are farther apart than `SYNC_TOL`. -/
theorem sync24_shifted_far : ∀ k, 1 ≤ k → k ≤ 20 →
    cfg0.syncTol < hd (sync24 cfg0 >>> k) (sync24 cfg0 &&& BitVec.ofNat 24 (2 ^ (24 - k) - 1)) := by
  intro k h1 h20
  interval_cases k <;> decide

end Sys2Proof.Machine

namespace Sys2Proof.Proofs

open Sys2Proof.Machine

/-- Settles O46: the clean packet as a run without an event before its last bit, and the emission at it. -/
theorem builtPacketIsReceived : Obligations.BuiltPacketIsReceived := by
  intro s msg q hc hr h1 h255
  have hemits : RxEmits s.cfg s.rx (packetBits s.cfg msg q) ⟨q, msg, 0, false⟩ :=
    emits_builtPacket (noise := []) hc hr h1 h255 nofun
  obtain ⟨t, hrun, hresp, hclear, hcount, -, htx⟩ := hemits.execAll (Nat.succ_pos 518)
  refine ⟨_, t, build_of_length q h1 h255, length_packetBits _ msg q, fun k hk => ?_, hrun, hresp, hclear, hcount, htx⟩
  obtain ⟨p, hquiet⟩ := hemits.take hk
  obtain ⟨v, hpart, hv⟩ := hquiet.execAll
  exact ⟨_, hpart, rfl, fun hpos => hv (by rw [List.length_take]; omega)⟩

/-- Settles O47: each part is near enough to the part sent, and each damaged group is corrected. -/
theorem damagedPacketIsReceived : Obligations.DamagedPacketIsReceived := by
  intro s msg q sent rcvd hc hr h1 h255 hbuild hlen hsync hnear hend
  obtain ⟨-, -, rfl⟩ := build_eq_ok hbuild
  rw [slice_syncPattern] at hsync
  rw [slice_endMarker] at hend
  have hemits := emits_damagedPacket (noise := []) hc hr h1 h255 (hlen.trans (length_packetBits _ msg q)) nofun hsync hnear hend
  have hfew := damagedGroups_le s.cfg msg q rcvd (8 + 2 * msg.length)
  obtain ⟨t, hrun, hresp, -, hcount, -⟩ := hemits.execAll (show damagedGroups _ _ _ _ _ < 519 by omega)
  exact ⟨t, hrun, hresp, hcount⟩

/-- Settles O48: `RXRST` leaves a cleared receiver, which receives the packet. -/
theorem packetAfterRxrstIsReceived : Obligations.PacketAfterRxrstIsReceived := by
  intro s msg q bits hc hbuild
  obtain ⟨h1, h255, rfl⟩ := build_eq_ok hbuild
  have hrst := (execRxrst_next s _).mpr rfl
  have hemits : RxEmits s.cfg (rxClear s.rx) (packetBits s.cfg msg q) ⟨q, msg, 0, false⟩ :=
    emits_builtPacket (noise := []) hc (rxClear_rxClear s.rx) h1 h255 nofun
  obtain ⟨t, hrun, hresp, hclear, -, htotal, -⟩ :=
    RxEmits.execAll (s := { s with rx := rxClear s.rx, resp := some .ok }) hemits (Nat.succ_pos 518)
  exact ⟨_, t, hrst, rfl, (execAll_cons_next _ _ _ _).mpr ⟨_, hrst, hrun⟩, hresp, hclear, htotal⟩

/-- Settles O49: no window that begins in the noise is taken for the pattern, and the packet's own is. -/
theorem noiseThenPacketIsReceived : Obligations.NoiseThenPacketIsReceived := by
  intro s noise bits msg q hc hr hbuild hnoise
  obtain ⟨h1, h255, rfl⟩ := build_eq_ok hbuild
  have hquiet : RxQuiet s.cfg s.rx noise (hunting s.rx noise) := by
    have hq := quiet_hunting (c := s.cfg) s.rx noise fun p hp =>
      slice_append_left (packetBits s.cfg msg q) hp ▸ hnoise p (by omega)
    rwa [hr] at hq
  obtain ⟨v, hrunNoise, -⟩ := hquiet.execAll
  obtain ⟨t, hrun, hresp, hclear, hcount, htotal, -⟩ := (emits_builtPacket hc hr h1 h255 hnoise).execAll (Nat.succ_pos 518)
  exact ⟨_, t, hrunNoise, rfl, rfl, hrun, hresp, hclear, hcount, htotal⟩

/-- Settles O50: the distances are evaluated, and bits of a window outside the overlap can only add to them. -/
theorem syncPatternStandsApart : Obligations.SyncPatternStandsApart := by
  refine ⟨by decide, fun k w h1 h20 hw => ?_⟩
  have hfar := sync24_shifted_far k h1 h20
  have hle := popcount_and_le (w ^^^ sync24 cfg0) (BitVec.ofNat 24 (2 ^ (24 - k) - 1))
  rw [xor_and_distrib, hw] at hle
  rw [← Bool.not_eq_true, syncMatch_iff]
  exact fun ⟨_, hnear⟩ => absurd (hfar.trans_le hle) (Nat.not_lt.mpr hnear)

end Sys2Proof.Proofs
end

section
/-! PROOFS. The statistics counters (spec/43_statistics.md R180 to R185): what `record` can do, that only the event of an `RXBIT`
step moves a counter, and that `SNAP` alone reads one. -/

namespace Sys2Proof.Machine

/-! ### `record` (R181) -/

/-- Everything `record` can do when it goes on, one case for each event. -/
theorem record_ok {ev : Event} {t u : Stat} (h : record ev t = .ok u) :
    (∃ pkt hist, ev = .packetEmitted pkt ∧ t.hist.bump pkt.correctedBitCount = .ok hist ∧
      u = { t with
        nEmitted := t.nEmitted + 1, totalCorrected := t.totalCorrected + pkt.correctedBitCount, hist := hist }) ∨
    (ev = .headerCorrupt ∧ u = { t with nHeaderCorrupt := t.nHeaderCorrupt + 1 }) ∨
    (ev = .endMarkerMismatch ∧ u = { t with nEndMismatch := t.nEndMismatch + 1 }) := by
  cases ev with
  | packetEmitted pkt =>
    simp only [record] at h
    cases hb : t.hist.bump pkt.correctedBitCount with
    | error f => simp [hb] at h
    | ok hist =>
      rw [hb] at h
      exact .inl ⟨pkt, hist, rfl, hb, (Except.ok.inj h).symm⟩
  | headerCorrupt => exact .inr (.inl ⟨rfl, (Except.ok.inj h).symm⟩)
  | endMarkerMismatch => exact .inr (.inr ⟨rfl, (Except.ok.inj h).symm⟩)

/-- R183: whether an event can be recorded does not depend on the counters. -/
theorem record_ok_of_ok {ev : Event} {t u : Stat} (h : record ev t = .ok u) (t' : Stat) : ∃ u', record ev t' = .ok u' := by
  obtain ⟨pkt, hist, rfl, hb, -⟩ | ⟨rfl, -⟩ | ⟨rfl, -⟩ := record_ok h
  · exact ⟨_, record_packetEmitted t' ((t.hist.bump_ok_iff hist _).mp hb).left⟩
  · exact ⟨_, rfl⟩
  · exact ⟨_, rfl⟩

/-- R185: no counter and no bin of `u` is below its value in `t`. -/
structure Stat.AtMost (t u : Stat) : Prop where
  nEmitted : t.nEmitted ≤ u.nEmitted
  nHeaderCorrupt : t.nHeaderCorrupt ≤ u.nHeaderCorrupt
  nEndMismatch : t.nEndMismatch ≤ u.nEndMismatch
  totalCorrected : t.totalCorrected ≤ u.totalCorrected
  hist : ∀ b, t.hist.count b ≤ u.hist.count b

theorem Stat.AtMost.refl (t : Stat) : t.AtMost t := ⟨le_rfl, le_rfl, le_rfl, le_rfl, fun _ => le_rfl⟩

theorem Hist.count_le_of_bump {h h' : Hist} {c : Nat} (hb : h.bump c = .ok h') (b : Nat) : h.count b ≤ h'.count b := by
  rw [Hist.count_bump hb]
  split
  · next hbc => exact hbc ▸ Nat.le_succ _
  · exact le_rfl

theorem record_atMost {ev : Event} {t u : Stat} (h : record ev t = .ok u) : t.AtMost u := by
  obtain ⟨pkt, hist, -, hb, rfl⟩ | ⟨-, rfl⟩ | ⟨-, rfl⟩ := record_ok h
  · exact ⟨Nat.le_succ _, le_rfl, le_rfl, Nat.le_add_right _ _, Hist.count_le_of_bump hb⟩
  · exact { Stat.AtMost.refl t with nHeaderCorrupt := Nat.le_succ _ }
  · exact { Stat.AtMost.refl t with nEndMismatch := Nat.le_succ _ }

/-! ### What writes a counter (R182) -/

theorem eventOf_of_ne_rxbit {i : Instr} (hi : ∀ b, i ≠ .rxbit b) (s : State) : eventOf i s = none := by
  cases i with
  | rxbit b => exact absurd rfl (hi b)
  | nop | enc | dec | rxrst | txput | txbuild | txclr | snap => rfl

/-- Everything a command that goes on can do to the counters: nothing without an event, and `record` of the event of an
`RXBIT`. -/
theorem exec_stat {i : Instr} {s t : State} (h : exec i s = .next t) :
    (eventOf i s = none ∧ t.stat = s.stat) ∨
    (∃ b ev, i = .rxbit b ∧ eventOf i s = some ev ∧ record ev s.stat = .ok t.stat) := by
  by_cases hbit : ∃ b, i = .rxbit b
  · obtain ⟨b, rfl⟩ := hbit
    obtain ⟨r, hr, rfl⟩ | ⟨r, ev, u, hr, hu, rfl⟩ := (execRxbit_next b s t).mp h
    · exact .inl ⟨by simp only [eventOf, hr], rfl⟩
    · exact .inr ⟨b, ev, rfl, eventOf_rxbit_eq_some.mpr ⟨r, hr⟩, hu⟩
  · have hne : ∀ b, i ≠ .rxbit b := not_exists.mp hbit
    exact .inl ⟨eventOf_of_ne_rxbit hne s, exec_keeps_stat hne h⟩

theorem exec_atMost {i : Instr} {s t : State} (h : exec i s = .next t) : s.stat.AtMost t.stat := by
  obtain ⟨-, hstat⟩ | ⟨b, ev, -, -, hrec⟩ := exec_stat h
  · exact hstat ▸ .refl _
  · exact record_atMost hrec

/-- R185: waiting and an illegal word leave every counter, and no command decreases one. -/
theorem step_atMost {s t : State} (h : step s = .next t) : s.stat.AtMost t.stat := by
  obtain ⟨-, rfl⟩ | ⟨w, rest, -, ⟨i, -, hx⟩ | ⟨e, -, rfl⟩⟩ := (step_next s t).mp h
  · exact .refl _
  · exact exec_atMost (s := { s with cmds := rest }) hx
  · exact .refl _

/-- R185: the three event counters together count the events. -/
theorem exec_eventTotal {i : Instr} {s t : State} (h : exec i s = .next t) :
    eventTotal t.stat = eventTotal s.stat + if (eventOf i s).isSome then 1 else 0 := by
  obtain ⟨hev, hstat⟩ | ⟨b, ev, -, hev, hrec⟩ := exec_stat h
  · rw [hev, hstat]
    rfl
  · rw [hev]
    exact (record_counters hrec).2.2

/-- R182: an illegal word writes no counter. -/
theorem step_illegal_keeps_stat {s t : State} {w : Word} {rest : List Word} (hc : s.cmds = w :: rest)
    (hw : ∀ i, decode w ≠ .ok i) (h : step s = .next t) : t.stat = s.stat := by
  obtain ⟨-, rfl⟩ | ⟨w', rest', hc', ⟨i, hd, -⟩ | ⟨e, -, rfl⟩⟩ := (step_next s t).mp h
  · rfl
  · obtain ⟨rfl, -⟩ := List.cons.inj (hc.symm.trans hc')
    exact absurd hd (hw i)
  · rfl

theorem execAll_keeps_stat {is : List Instr} {s t : State} (hi : ∀ b, Instr.rxbit b ∉ is) (h : execAll is s = .next t) :
    t.stat = s.stat := by
  induction is generalizing s with
  | nil =>
    obtain rfl : s = t := by simpa using h
    rfl
  | cons i is ih =>
    obtain ⟨u, hx, hrest⟩ := (execAll_cons_next i is s t).mp h
    have hu : u.stat = s.stat := exec_keeps_stat (fun b hb => hi b (hb ▸ List.mem_cons_self)) hx
    exact (ih (fun b hb => hi b (List.mem_cons_of_mem i hb)) hrest).trans hu

/-! ### What reads a counter (R183) -/

/-- R183: `RXBIT` does the same to every other register whatever the counters hold. -/
theorem execRxbit_with_stat {b : Bool} {s t : State} (h : exec (.rxbit b) s = .next t) (u : Stat) :
    ∃ u', exec (.rxbit b) { s with stat := u } = .next { t with stat := u' } := by
  obtain ⟨r, hr, rfl⟩ | ⟨r, ev, v, hr, hv, rfl⟩ := (execRxbit_next b s t).mp h
  · exact ⟨u, execRxbit_of_quiet (s := { s with stat := u }) hr⟩
  · obtain ⟨u', hu'⟩ := record_ok_of_ok hv u
    exact ⟨u', execRxbit_of_event (s := { s with stat := u }) hr hu'⟩

/-- R183: every command but `RXBIT` and `SNAP` neither reads nor writes a counter. -/
theorem exec_with_stat {i : Instr} {s t : State} (hbit : ∀ b, i ≠ .rxbit b) (hsnap : i ≠ .snap) (h : exec i s = .next t)
    (u : Stat) : exec i { s with stat := u } = .next { t with stat := u } := by
  have htransmit (hi : i = .txclr ∨ (∃ v, i = .txput v) ∨ ∃ q, i = .txbuild q) :
      exec i { s with stat := u } = .next { t with stat := u } := by
    obtain ⟨hrx, -, hind⟩ := exec_transmit_independent hi h
    simpa only [hrx] using hind s.rx u
  cases i with
  | nop => exact (execNop_next s t).mp h ▸ rfl
  | enc n => exact (execEnc_next n s t).mp h ▸ rfl
  | dec c =>
    obtain ⟨d, hd, rfl⟩ := (execDec_next c s t).mp h
    exact (execDec_next c _ _).mpr ⟨d, hd, rfl⟩
  | rxbit b => exact absurd rfl (hbit b)
  | rxrst => exact (execRxrst_next s t).mp h ▸ rfl
  | txput v => exact htransmit (.inr (.inl ⟨v, rfl⟩))
  | txbuild q => exact htransmit (.inr (.inr ⟨q, rfl⟩))
  | txclr => exact htransmit (.inl rfl)
  | snap => exact absurd rfl hsnap

end Sys2Proof.Machine

namespace Sys2Proof.Proofs

open Sys2Proof.Machine

/-- Settles O54: the counters copied by the second `SNAP` are those the first left, by induction on the commands between. -/
theorem snapCopiesTheCounters : Obligations.SnapCopiesTheCounters := by
  refine fun s => ⟨(execSnap_next s _).mpr rfl, fun is t hi hrun => ?_⟩
  obtain ⟨v, hfirst, hlast⟩ := (execAll_append _ _ _ _).mp hrun
  obtain ⟨w, hsnap, hend⟩ := (execAll_cons_next _ _ _ _).mp hlast
  have hv : v.stat = s.stat := execAll_keeps_stat (by simpa using hi) hfirst
  obtain rfl := (execSnap_next v w).mp hsnap
  obtain rfl := Host.Outcome.next.inj hend
  exact ⟨by rw [hv], hv⟩

/-- Settles O55, by the law of the histogram for an emission; the other two cases are the text of R181. -/
theorem recordCountsOneEvent : Obligations.RecordCountsOneEvent := by
  refine fun t => ⟨fun pkt hle => ?_, rfl, rfl⟩
  have hbin : pkt.correctedBitCount < histBins := Nat.lt_succ_of_le hle
  refine ⟨_, record_packetEmitted t hbin, fun c => ?_⟩
  rw [Hist.count_bump (Hist.bump_of_lt t.hist hbin)]
  split
  · next hc => rw [hc]
  · rfl

/-- Settles O56, along what a command can do to the counters. -/
theorem onlyEventsMoveCounters : Obligations.OnlyEventsMoveCounters := by
  refine ⟨fun i s t hx => ?_, fun s t w rest => step_illegal_keeps_stat⟩
  obtain ⟨hev, hstat⟩ | ⟨b, ev, hi, hev, hrec⟩ := exec_stat hx <;> rw [hev]
  · exact ⟨nofun, fun _ => hstat⟩
  · exact ⟨fun ev' he => Option.some.inj he ▸ ⟨hrec, b, hi⟩, nofun⟩

/-- Settles O57: the counters decide neither the step of an `RXBIT` nor whether its event can be recorded, and no other command
but `SNAP` names them. -/
theorem countersNeverSteerTheDevice : Obligations.CountersNeverSteerTheDevice := by
  intro i s t u hx hsnap
  by_cases hbit : ∃ b, i = .rxbit b
  · obtain ⟨b, rfl⟩ := hbit
    exact execRxbit_with_stat hx u
  · exact ⟨u, exec_with_stat (not_exists.mp hbit) hsnap hx u⟩

/-- Settles O58: the sums are clauses of the invariant, and every step follows what `record` can do. -/
theorem countersAddUp : Obligations.CountersAddUp := by
  refine ⟨fun c s hc hs => ?_, fun s t hs => ?_, fun i s t => exec_eventTotal, fun c => rfl⟩
  · have hstat := (inv_of_reachable hc hs).stat
    exact ⟨hstat.emitted_sum, hstat.corrected_sum⟩
  · have hgrow := step_atMost hs
    exact ⟨hgrow.nEmitted, hgrow.nHeaderCorrupt, hgrow.nEndMismatch, hgrow.totalCorrected, hgrow.hist⟩

end Sys2Proof.Proofs
end

section
/-! PROOFS. Errors and totality (spec/60_exceptions.md): the answers to an illegal word and to a refused `TXBUILD` (R195, R196), and
that where the invariant holds every command, and so every word, has its step (R202). -/

namespace Sys2Proof.Machine

/-- R196: the step on an illegal word; the equation beside `step_of_decode`. -/
theorem step_of_illegal {s : State} {w : Word} {rest : List Word} (hc : s.cmds = w :: rest) (hw : ∀ i, decode w ≠ .ok i) :
    step s = .next { s with cmds := rest, resp := some (.error .illegalCommand) } := by
  cases hd : decode w with
  | ok i => exact absurd hd (hw i)
  | error e => exact (step_next s _).mpr (.inr ⟨w, rest, hc, .inr ⟨e, hd, rfl⟩⟩)

/-- R33, R52: where the invariant holds `TXBUILD` answers: it refuses the length, or has the staged message to build from. -/
theorem execTxbuild_total {s : State} (h : TxInv s.tx) (q : Byte) : ∃ t, exec (.txbuild q) s = .next t := by
  by_cases hlen : s.tx.txlen = 0 ∨ s.tx.txlen = 256
  · exact ⟨_, (execTxbuild_next q s _).mpr (.inl ⟨hlen, rfl⟩)⟩
  · cases hload : s.tx.txbuf.load s.tx.txlen.toNat with
    | error f => exact absurd ((execTxbuild_fault q s f).mpr ⟨hlen, hload⟩) (execTxbuild_ne_fault h q f)
    | ok msg =>
      cases hbuild : build s.cfg msg q with
      | ok bits => exact ⟨_, (execTxbuild_next q s _).mpr (.inr ⟨hlen, msg, hload, .inl ⟨bits, hbuild, rfl⟩⟩)⟩
      | error e => exact ⟨_, (execTxbuild_next q s _).mpr (.inr ⟨hlen, msg, hload, .inr ⟨e, hbuild, rfl⟩⟩)⟩

/-- R202: where the invariant holds every command has its next state. `DEC` needs a well-formed `cfg` for it, `RXBIT` and `TXBUILD`
what they read of their buffers; the other commands need nothing. -/
theorem exec_total {s : State} (h : Inv s) (i : Instr) : ∃ t, exec i s = .next t := by
  cases i with
  | nop => exact ⟨_, (execNop_next s _).mpr rfl⟩
  | enc n => exact ⟨_, (execEnc_next n s _).mpr rfl⟩
  | dec c =>
    obtain ⟨r, hr⟩ := dec_total h.cfg_wf c
    exact ⟨_, (execDec_next c s _).mpr ⟨r, hr, rfl⟩⟩
  | rxbit b => exact execRxbit_total h b
  | rxrst => exact ⟨_, (execRxrst_next s _).mpr rfl⟩
  | txput v =>
    obtain hroom | hfull := le_or_gt s.tx.txlen.toNat 254
    · exact ⟨_, execTxput_of_room v hroom⟩
    · exact ⟨_, execTxput_of_full v hfull⟩
  | txbuild q => exact execTxbuild_total h.tx q
  | txclr => exact ⟨_, (execTxclr_next s _).mpr rfl⟩
  | snap => exact ⟨_, (execSnap_next s _).mpr rfl⟩

/-- R202: where the invariant holds every word the host issues has its step, a command or illegal. -/
theorem step_total {s : State} (h : Inv s) {w : Word} {rest : List Word} (hc : s.cmds = w :: rest) : ∃ t, step s = .next t := by
  by_cases hw : ∃ i, decode w = .ok i
  · obtain ⟨i, hd⟩ := hw
    rw [step_of_decode hc hd]
    exact exec_total (h.with_cmds_resp rest s.resp) i
  · exact ⟨_, step_of_illegal hc (not_exists.mp hw)⟩

end Sys2Proof.Machine

namespace Sys2Proof.Proofs

open Sys2Proof.Machine

/-- Settles O6: by the opcode map (R81) a word that selects no row stands for no command, and the step on such a word answers it. -/
theorem illegalWordsChangeNothing : Obligations.IllegalWordsChangeNothing := by
  intro s w rest hc hrows
  obtain ⟨hlegal, -⟩ := decodeFollowsOpcodeMap w
  refine step_of_illegal hc fun i hd => ?_
  obtain ⟨row, hmem, hsel⟩ := hlegal.mp ⟨i, hd⟩
  exact hrows row hmem hsel

/-- Settles O13: the invariant holds in every reachable state and says nothing of the words to come. -/
theorem everyWordHasAStep : Obligations.EveryWordHasAStep := fun _ s w rest hc hs =>
  step_total ((inv_of_reachable hc hs).with_cmds_resp (w :: rest) s.resp) rfl

/-- Settles O27: the refused lengths are the first case of `TXBUILD`, which does nothing but empty staging and respond. -/
theorem txbuildRefusesBadLength : Obligations.TxbuildRefusesBadLength := fun q s hlen =>
  (execTxbuild_next q s _).mpr (.inl ⟨hlen, rfl⟩)

end Sys2Proof.Proofs
end

section
/-! PROOFS. Hard reset and waiting (spec/70_reset_and_hazards.md): what the registers hold after hard reset (R220, R38), and the step of
a device to which no command is issued (R222, log 2). -/

namespace Sys2Proof.Machine

/-- R220: right after hard reset another one changes nothing. -/
@[simp] theorem hardReset_resetWith (c : Cfg) : hardReset (State.resetWith c) = State.resetWith c := rfl

/-- R222, log 2: the step of a device with no command issued; the third equation of `step`, beside `step_of_decode` and
`step_of_illegal`. -/
theorem step_of_no_command {s : State} (hc : s.cmds = []) : step s = .next { s with resp := none } :=
  (step_next s _).mpr (.inl ⟨hc, rfl⟩)

end Sys2Proof.Machine

namespace Sys2Proof.Proofs

open Sys2Proof.Machine

/-- Settles O1: each block of registers is the one of R38, read off register by register; its histogram lists no bin. -/
theorem hardResetWritesTheTable : Obligations.HardResetWritesTheTable := by
  intro s t
  have hcfg : t.cfg = s.cfg := hardReset_cfg s
  have hrx : t.rx = .reset := hardReset_rx s
  have htx : t.tx = .reset := hardReset_tx s
  have hstat : t.stat = .reset := hardReset_stat s
  rw [hrx, htx, hstat]
  exact ⟨hcfg, rfl, rfl, rfl, rfl, rfl, rfl, rfl, rfl, rfl, rfl, rfl, rfl, rfl, rfl, rfl, rfl, rfl,
    Hist.count_nil, hardReset_resetWith cfg0⟩

/-- Settles O10. -/
theorem waitingChangesNothing : Obligations.WaitingChangesNothing := fun _ => step_of_no_command

end Sys2Proof.Proofs
end
